-- ==== Sys2Proof/Word.lean ====
section
/-! DEFINITION. The bit-vector types of the Payload Codec, each under the name the model uses for it. -/

namespace Sys2Proof

/-- One byte of the payload (`00_scope.md` R5: a byte has 8 bits). -/
abbrev Byte := BitVec 8

/-- The IEEE 754 binary64 pattern of a real operand or result (`00_scope.md` R6). -/
abbrev Real64 := BitVec 64

/-- `PAYV`, the ten payload bytes as one 80-bit vector, byte 0 most significant (`00_scope.md` section 6.2). -/
abbrev PayVec := BitVec 80

/-- A command word `CMD = OP ‖ A ‖ B`, 4 + 64 + 64 bits (`30_encoding.md` R57). -/
abbrev CmdWord := BitVec 132

/-- A response word `RSP = RSP.A ‖ RSP.B`, 64 + 64 bits (`30_encoding.md` R59). -/
abbrev RspWord := BitVec 128

end Sys2Proof
end

