-- ==== Sys2Proof/Config.lean ====
section
/-! DEFINITION. What is fixed for every instance of the block (`00_scope.md` R5), and the values the spec leaves open.
The real constants of R11 and the field layout of R33 stand beside the operations that use them, under Machine/. -/

namespace Sys2Proof.Config

/-- NBYTES, the size of the payload in bytes, also the count VIEW reports (`00_scope.md` R5, `44_view.md` R89). -/
def nbytes : Nat := 10

/-- INTW, the width of SETVER's integer operand (`00_scope.md` R5, `92_eei_decisions.md` D5). -/
def intw : Nat := 32

/-- The four binary64 operations of `00_scope.md` R7. -/
inductive RealOp where
  | add | sub | mul | div
  deriving DecidableEq, Repr

/-- FREE VALUE (log entry 7). What an operation of R7 gives where the rule states no result: an operand that is an
infinity or a NaN (`val` is given for finite patterns only), or a zero divisor. No command reaches such a case
(`42_setters.md` R75, `30_encoding.md` R56); no value of it can be proved. -/
opaque undefinedReal : RealOp → Real64 → Real64 → Real64

/-- FREE VALUE (log entry 7). What `ftrunc` gives for an infinity or a NaN; `00_scope.md` R9 defines it for a finite
operand only, and no command reaches the other case. -/
opaque undefinedTrunc : Real64 → Int

end Sys2Proof.Config
end

