-- ==== Sys2Proof/Syntax.lean ====
section
/-! DEFINITION. The sixteen commands of the block, one constructor for each row of spec/opcode_table.json
(`30_encoding.md` R62), in the table's order. Operand kinds: R58. -/

namespace Sys2Proof

/-- A command with its operands, as the host issues it (`30_encoding.md` R62, R66). -/
inductive Instr where
  /-- CLR, opcode 0x0: clear the payload (R70). -/
  | clr
  /-- LOAD, opcode 0x1: load the payload from the 80-bit buffer operand (R71). -/
  | load (buf : PayVec)
  /-- EQ, opcode 0x2: compare the payload with the 80-bit buffer operand (R73). -/
  | eq (buf : PayVec)
  /-- SETVER, opcode 0x3: strict version setter; `n` is the mathematical integer the operand spells (R76, R12). -/
  | setver (n : Int)
  /-- SETTEMP, opcode 0x4: strict temperature setter, a binary64 operand (R77). -/
  | settemp (t : Real64)
  /-- SETHUM, opcode 0x5: strict humidity setter, a binary64 operand (R78). -/
  | sethum (h : Real64)
  /-- SETGAS, opcode 0x6: strict gas-level setter, a binary64 operand (R79). -/
  | setgas (g : Real64)
  /-- SETGPS, opcode 0x7: strict coordinate setter, latitude first (R80). -/
  | setgps (lat lon : Real64)
  /-- SETBAT, opcode 0x8: battery flag, any boolean (R81). -/
  | setbat (b : Bool)
  /-- GETVER, opcode 0x9 (R83). -/
  | getver
  /-- GETBAT, opcode 0xA (R84). -/
  | getbat
  /-- GETTEMP, opcode 0xB (R85). -/
  | gettemp
  /-- GETHUM, opcode 0xC (R86). -/
  | gethum
  /-- GETGAS, opcode 0xD (R87). -/
  | getgas
  /-- GETGPS, opcode 0xE (R88). -/
  | getgps
  /-- VIEW, opcode 0xF: the ten raw bytes and their count (R89). -/
  | view
  deriving DecidableEq, Repr

end Sys2Proof
end

