-- ==== Sys2Proof/WellFormed.lean ====
section
/-! DEFINITION. Which terms of `Instr` a command word can spell. Every operand but SETVER's is a bit vector or a
boolean of the operand's own width, so every value of it is an operand (`30_encoding.md` R58, R63). SETVER's integer
is what a 32-bit two's complement field can spell. -/

namespace Sys2Proof

/-- `n` is the value of some 32-bit two's complement operand: -2^31 to 2^31 - 1 (`30_encoding.md` R58). -/
def intOperandFits (n : Int) : Bool :=
  decide (-(2 ^ (Config.intw - 1) : Int) ≤ n) && decide (n < (2 ^ (Config.intw - 1) : Int))

/-- The command can be spelled by a command word (`30_encoding.md` R57, R58). -/
def Instr.wf : Instr → Bool
  | .clr => true
  | .load _ => true
  | .eq _ => true
  | .setver n => intOperandFits n
  | .settemp _ => true
  | .sethum _ => true
  | .setgas _ => true
  | .setgps _ _ => true
  | .setbat _ => true
  | .getver => true
  | .getbat => true
  | .gettemp => true
  | .gethum => true
  | .getgas => true
  | .getgps => true
  | .view => true

end Sys2Proof
end

