-- ==== Sys2Proof/Decode.lean ====
section
/-! DEFINITION. From command words to commands and back (`30_encoding.md` Part B). The decoder is total on the 2^132
command words (R63); a number that is no command word is rejected by name. After it the encoder, and the opcode table
of R62 as rows to hold both against. -/

namespace Sys2Proof

/-- `CMD.OP = CMD[131:128]` (`30_encoding.md` R57). -/
def cmdOp (w : CmdWord) : BitVec 4 := w.extractLsb' 128 4

/-- `CMD.A = CMD[127:64]` (`30_encoding.md` R57). -/
def cmdA (w : CmdWord) : BitVec 64 := w.extractLsb' 64 64

/-- `CMD.B = CMD[63:0]` (`30_encoding.md` R57). -/
def cmdB (w : CmdWord) : BitVec 64 := w.extractLsb' 0 64

/-- The integer operand `sint(A[31:0])` (`30_encoding.md` R58). -/
def intOperand (w : CmdWord) : Int := ((cmdA w).extractLsb' 0 32).toInt

/-- The boolean operand `A[0]` (`30_encoding.md` R58). -/
def boolOperand (w : CmdWord) : Bool := (cmdA w).getLsbD 0

/-- The buffer operand `BUF = A ‖ B[63:48]` (`30_encoding.md` R58). -/
def bufOperand (w : CmdWord) : PayVec := cmdA w ++ (cmdB w).extractLsb' 48 16

/-- The command a command word spells (`30_encoding.md` R58, R62, R63). The opcode has four bits and the last arm is
its one remaining value, 0xF. -/
def decode (w : CmdWord) : Instr :=
  match cmdOp w with
  | 0x0#4 => .clr
  | 0x1#4 => .load (bufOperand w)
  | 0x2#4 => .eq (bufOperand w)
  | 0x3#4 => .setver (intOperand w)
  | 0x4#4 => .settemp (cmdA w)
  | 0x5#4 => .sethum (cmdA w)
  | 0x6#4 => .setgas (cmdA w)
  | 0x7#4 => .setgps (cmdA w) (cmdB w)
  | 0x8#4 => .setbat (boolOperand w)
  | 0x9#4 => .getver
  | 0xA#4 => .getbat
  | 0xB#4 => .gettemp
  | 0xC#4 => .gethum
  | 0xD#4 => .getgas
  | 0xE#4 => .getgps
  | _ => .view

/-- Why a number spells no command. -/
inductive DecodeReject where
  /-- The number has a bit above bit 131: the command port is 132 bits wide (`30_encoding.md` R57, R65). -/
  | widerThanCommandPort
  deriving DecidableEq, Repr

/-- Decoding of any number, read as a command word with bit 0 its least significant bit (`30_encoding.md` R57, R65). -/
def decodeNumber (w : Nat) : Except DecodeReject Instr :=
  if w < 2 ^ 132 then .ok (decode (BitVec.ofNat 132 w)) else .error .widerThanCommandPort

/-- The decoder over the opcode table's numbering of bits. A command is one 132-bit word, so `w` is the command word
itself; the width the host gives the row adds nothing (`30_encoding.md` R57, R62). -/
def decodeTableWord (_nbits w : Nat) : Option Instr :=
  match decodeNumber w with
  | .ok i => some i
  | .error _ => none

/-- A command word from its three parts (`30_encoding.md` R57). -/
def cmdWord (op : BitVec 4) (a b : BitVec 64) : CmdWord := op ++ a ++ b

/-- The operand fields A, B of a buffer operand: byte k at `CMD[127-8k : 120-8k]`, B[47:0] zero
(`30_encoding.md` R58, R66). -/
def bufWord (op : BitVec 4) (buf : PayVec) : CmdWord := op ++ buf ++ (0#48)

/-- The opcode of a command (`30_encoding.md` R62). -/
def Instr.opcode : Instr → BitVec 4
  | .clr => 0x0#4
  | .load _ => 0x1#4
  | .eq _ => 0x2#4
  | .setver _ => 0x3#4
  | .settemp _ => 0x4#4
  | .sethum _ => 0x5#4
  | .setgas _ => 0x6#4
  | .setgps _ _ => 0x7#4
  | .setbat _ => 0x8#4
  | .getver => 0x9#4
  | .getbat => 0xA#4
  | .gettemp => 0xB#4
  | .gethum => 0xC#4
  | .getgas => 0xD#4
  | .getgps => 0xE#4
  | .view => 0xF#4

/-- The canonical command word of a command, unused operand bits zero (`30_encoding.md` R57, R58, R62, R66). -/
def encode (i : Instr) : CmdWord :=
  match i with
  | .clr => cmdWord i.opcode 0 0
  | .load buf => bufWord i.opcode buf
  | .eq buf => bufWord i.opcode buf
  | .setver n => cmdWord i.opcode ((BitVec.ofInt 32 n).setWidth 64) 0
  | .settemp t => cmdWord i.opcode t 0
  | .sethum h => cmdWord i.opcode h 0
  | .setgas g => cmdWord i.opcode g 0
  | .setgps lat lon => cmdWord i.opcode lat lon
  | .setbat b => cmdWord i.opcode ((BitVec.ofBool b).setWidth 64) 0
  | .getver => cmdWord i.opcode 0 0
  | .getbat => cmdWord i.opcode 0 0
  | .gettemp => cmdWord i.opcode 0 0
  | .gethum => cmdWord i.opcode 0 0
  | .getgas => cmdWord i.opcode 0 0
  | .getgps => cmdWord i.opcode 0 0
  | .view => cmdWord i.opcode 0 0

/-- The mnemonic of a command (`30_encoding.md` R62). -/
def Instr.mnemonic : Instr → String
  | .clr => "CLR"
  | .load _ => "LOAD"
  | .eq _ => "EQ"
  | .setver _ => "SETVER"
  | .settemp _ => "SETTEMP"
  | .sethum _ => "SETHUM"
  | .setgas _ => "SETGAS"
  | .setgps _ _ => "SETGPS"
  | .setbat _ => "SETBAT"
  | .getver => "GETVER"
  | .getbat => "GETBAT"
  | .gettemp => "GETTEMP"
  | .gethum => "GETHUM"
  | .getgas => "GETGAS"
  | .getgps => "GETGPS"
  | .view => "VIEW"

/-- The mask of every row of R62: the top four bits. -/
def opcodeMask : CmdWord := 0xF00000000000000000000000000000000#132

/-- The rows of R62: mnemonic, `match` word. -/
def opcodeTable : List (String × CmdWord) :=
  [("CLR", 0x000000000000000000000000000000000#132), ("LOAD", 0x100000000000000000000000000000000#132),
   ("EQ", 0x200000000000000000000000000000000#132), ("SETVER", 0x300000000000000000000000000000000#132)] ++
  [("SETTEMP", 0x400000000000000000000000000000000#132), ("SETHUM", 0x500000000000000000000000000000000#132),
   ("SETGAS", 0x600000000000000000000000000000000#132), ("SETGPS", 0x700000000000000000000000000000000#132)] ++
  [("SETBAT", 0x800000000000000000000000000000000#132), ("GETVER", 0x900000000000000000000000000000000#132),
   ("GETBAT", 0xA00000000000000000000000000000000#132), ("GETTEMP", 0xB00000000000000000000000000000000#132)] ++
  [("GETHUM", 0xC00000000000000000000000000000000#132), ("GETGAS", 0xD00000000000000000000000000000000#132),
   ("GETGPS", 0xE00000000000000000000000000000000#132), ("VIEW", 0xF00000000000000000000000000000000#132)]

/-- The bits of the command word that a command's opcode makes operands or opcode; every other bit is ignored
(`30_encoding.md` R57, R58 and the operand bit ranges of spec/opcode_table.json). -/
def usedBits (op : BitVec 4) : CmdWord :=
  match op with
  | 0x1#4 => 0xFFFFFFFFFFFFFFFFFFFFF000000000000#132
  | 0x2#4 => 0xFFFFFFFFFFFFFFFFFFFFF000000000000#132
  | 0x3#4 => 0xF00000000FFFFFFFF0000000000000000#132
  | 0x4#4 => 0xFFFFFFFFFFFFFFFFF0000000000000000#132
  | 0x5#4 => 0xFFFFFFFFFFFFFFFFF0000000000000000#132
  | 0x6#4 => 0xFFFFFFFFFFFFFFFFF0000000000000000#132
  | 0x7#4 => 0xFFFFFFFFFFFFFFFFFFFFFFFFFFFFFFFFF#132
  | 0x8#4 => 0xF00000000000000010000000000000000#132
  | _ => opcodeMask

end Sys2Proof
end

