-- ==== Sys2Proof/Machine/State.lean ====
section
/-! DEFINITION. The state of the block and the reasons a command can stop. PAY, FAULT and FCODE are all the state the
spec gives the block (`10_state.md` R20, R22, R23, R27). `inputs` and `rsp` are the model's own: what the host will
present at the ports, and what stands at the response port after the step (log entries 1 and 2). -/

namespace Sys2Proof.Machine

/-- What the host presents at the input ports for one step: the reset request `rst` and, where one is presented, a
command word `cmd` (`30_encoding.md` R57). Both may come together (`70_reset_and_hazards.md` R105). -/
structure PortInput where
  rst : Bool
  cmd : Option CmdWord
  deriving DecidableEq, Repr

/-- The block and its ports. -/
structure State where
  /-- PAY, the payload register, as the vector PAYV: byte i is bits 79-8i down to 72-8i (R20, section 6.2). -/
  pay : PayVec
  /-- FAULT, the sticky fault latch and the `fault` output (R22). -/
  fault : Bool
  /-- FCODE, the cause of the fault and the `fcode` output (R23). -/
  fcode : BitVec 3
  /-- What the host still has to present, next first. The host's, not the block's (R24, R26; log entry 1). -/
  inputs : List PortInput
  /-- The response word produced by the step just taken; none where it produced none (R25, R59; log entry 2). -/
  rsp : Option RspWord
  deriving DecidableEq, Repr

/-- Why a command is not performed. -/
inductive Fault where
  /-- Raised by every command's meaning when FAULT = 1: "a state with FAULT = 1 has no command step"
  (`60_exceptions.md` R96). Safe: it is a stop, and the spec gives such a command no result. -/
  | commandWhileFaulted
  deriving DecidableEq, Repr

/-- Why an instruction has no meaning in the model. -/
inductive Refusal where
  /-- An arm of `exec` that has no meaning yet. Raised by no arm of this model. Safe: it is a stop. -/
  | notModelled (mnemonic : String)
  deriving DecidableEq, Repr

/-- The machine right after reset: PAY all zero, FAULT = 0, FCODE = 0 (`10_state.md` R28, `70_reset_and_hazards.md`
R105, R106). The host has presented nothing and no response stands at the port (log entries 1 and 2). -/
def State.reset : State := { pay := 0, fault := false, fcode := 0, inputs := [], rsp := none }

end Sys2Proof.Machine
end

