-- ==== Sys2Proof/Machine/Flags.lean ====
section
/-! DEFINITION. The only status the block has: FAULT and FCODE (`10_state.md` R22, R23). It has no condition codes and
no floating-point exception flags (R25). -/

namespace Sys2Proof.Machine

/-- FCODE 0: no fault (`60_exceptions.md` R91). -/
def codeNone : BitVec 3 := 0
/-- FCODE 1: version out of range (`60_exceptions.md` R91). -/
def codeVersion : BitVec 3 := 1
/-- FCODE 2: temperature out of range or not finite (`60_exceptions.md` R91). -/
def codeTemperature : BitVec 3 := 2
/-- FCODE 3: humidity out of range or not finite (`60_exceptions.md` R91). -/
def codeHumidity : BitVec 3 := 3
/-- FCODE 4: gas level out of range or not finite (`60_exceptions.md` R91). -/
def codeGas : BitVec 3 := 4
/-- FCODE 5: latitude out of range or not finite (`60_exceptions.md` R91). -/
def codeLatitude : BitVec 3 := 5
/-- FCODE 6: longitude out of range or not finite, latitude valid (`60_exceptions.md` R91). -/
def codeLongitude : BitVec 3 := 6

/-- FAULT <- 1 and FCODE <- code (`60_exceptions.md` R93, R94). -/
def State.latchFault (code : BitVec 3) (s : State) : State := { s with fault := true, fcode := code }

/-- FAULT <- 0 and FCODE <- 0, which only reset does (`10_state.md` R22, R23). -/
def State.clearFault (s : State) : State := { s with fault := false, fcode := codeNone }

/-- The `fault` output port (`30_encoding.md` R57, R59). -/
def State.faultPort (s : State) : BitVec 1 := BitVec.ofBool s.fault

/-- The `fcode` output port (`30_encoding.md` R57, R59). -/
def State.fcodePort (s : State) : BitVec 3 := s.fcode

end Sys2Proof.Machine
end

