-- ==== Sys2Proof/Machine/Layout.lean ====
section
/-! DEFINITION. Where the eight fields stand in the payload (`20_memory.md` R33, `30_encoding.md` R45, R46). -/

namespace Sys2Proof.Machine

/-- The eight fields of the wire layout, in wire order (`20_memory.md` R33). -/
inductive PayField where
  | ver | bat | rsv | temp | hum | gas | lat | lon
  deriving DecidableEq, Repr

/-- The wire position p of the field's most significant bit (`20_memory.md` R33). -/
def PayField.pos : PayField → Nat
  | .ver => 0
  | .bat => 4
  | .rsv => 5
  | .temp => 8
  | .hum => 18
  | .gas => 25
  | .lat => 32
  | .lon => 56

/-- The width w of the field (`20_memory.md` R33). -/
def PayField.width : PayField → Nat
  | .ver => 4
  | .bat => 1
  | .rsv => 3
  | .temp => 10
  | .hum => 7
  | .gas => 7
  | .lat => 24
  | .lon => 24

/-- All fields, in wire order. -/
def PayField.all : List PayField := [.ver, .bat, .rsv, .temp, .hum, .gas, .lat, .lon]

/-- `extract(p, w)`: the raw value of the w-bit field at wire position p, `uint(PAYV[79-p : 80-p-w])`
(`20_memory.md` R35). -/
def extractBits (pay : PayVec) (p w : Nat) : Nat := (pay.extractLsb' (80 - p - w) w).toNat

/-- `insert(p, w, v)`: the w bits at wire position p replaced by the spelling of v, every other bit of PAYV kept
(`20_memory.md` R36). -/
def insertBits (pay : PayVec) (p w v : Nat) : PayVec :=
  (pay &&& ~~~((BitVec.allOnes w).setWidth 80 <<< (80 - p - w))) ||| ((BitVec.ofNat w v).setWidth 80 <<< (80 - p - w))

/-- The raw value a field's bits spell (`10_state.md` R21, `20_memory.md` R35). -/
def readField (pay : PayVec) (f : PayField) : Nat := extractBits pay f.pos f.width

/-- The payload with one field's raw value replaced (`20_memory.md` R36). -/
def writeField (pay : PayVec) (f : PayField) (v : Nat) : PayVec := insertBits pay f.pos f.width v

/-- `PAY[i]`, byte i of the payload (`00_scope.md` section 6.2, `20_memory.md` R30). The index has the ten values the
address space has, so no other address can be named. -/
def payByte (pay : PayVec) (i : Fin 10) : Byte := pay.extractLsb' (72 - 8 * i.val) 8

/-- `PAY[0] ‖ PAY[1] ‖ … ‖ PAY[9]`: the vector of ten byte values, byte 0 first (`00_scope.md` section 6.2). -/
def payOfBytes (b : Fin 10 → Byte) : PayVec :=
  b 0 ++ b 1 ++ b 2 ++ b 3 ++ b 4 ++ b 5 ++ b 6 ++ b 7 ++ b 8 ++ b 9

/-- `MemRead(addr, n)`: n bytes from addr, the first most significant; defined for addr + n <= 10 only
(`00_scope.md` section 6.3). -/
def memRead (pay : PayVec) (addr n : Nat) : Option (BitVec (8 * n)) :=
  if addr + n ≤ Config.nbytes then some (pay.extractLsb' (80 - 8 * addr - 8 * n) (8 * n)) else none

/-- `MemWrite(addr, n, v)`: the converse of `MemRead` (`00_scope.md` section 6.3). -/
def memWrite (pay : PayVec) (addr n : Nat) (v : BitVec (8 * n)) : Option PayVec :=
  if addr + n ≤ Config.nbytes then some (insertBits pay (8 * addr) (8 * n) v.toNat) else none

end Sys2Proof.Machine
end

