-- ==== Sys2Proof/Machine/Ops.lean ====
section
/-! DEFINITION. The operations the commands share: writing PAY, responding, taking the one exception
(`60_exceptions.md` R94), reset, and the standing precondition FAULT = 0 (R96). There is no return from the exception
(R97): the only way out of the faulted state is `State.applyReset`. -/

namespace Sys2Proof.Machine

/-- The whole of PAY replaced. -/
def State.setPay (pay : PayVec) (s : State) : State := { s with pay := pay }

/-- One field of PAY replaced by a raw value (`20_memory.md` R36, `42_setters.md` R74 step 3). -/
def State.setField (f : PayField) (raw : Nat) (s : State) : State := { s with pay := writeField s.pay f raw }

/-- The raw value of a field of PAY (`20_memory.md` R35, `43_getters.md` R82). -/
def State.raw (s : State) (f : PayField) : Nat := readField s.pay f

/-- `RSP <- v` (`00_scope.md` section 7). -/
def State.respond (v : RspWord) (s : State) : State := { s with rsp := some v }

/-- No response stands at the port: the step produced none (`10_state.md` R25; log entry 2). -/
def State.noResponse (s : State) : State := { s with rsp := none }

/-- `RSP.A ‖ RSP.B` (`30_encoding.md` R59). -/
def rspWord (a b : BitVec 64) : RspWord := a ++ b

/-- The all-zero response of a command without a result (`30_encoding.md` R59). -/
def rspNone : RspWord := rspWord 0 0

/-- The response of VIEW: PAYV, 44 zeros, the byte count in four bits (`30_encoding.md` R59, `44_view.md` R89). -/
def rspView (pay : PayVec) : RspWord := pay ++ (0#44) ++ BitVec.ofNat 4 Config.nbytes

/-- `raise PreconditionViolation(code)`: FAULT <- 1, FCODE <- code, RSP <- 0, PAY not written; control goes nowhere
(`60_exceptions.md` R94, R95). -/
def State.raisePrecondition (code : BitVec 3) (s : State) : State := (s.latchFault code).respond rspNone

/-- The standing precondition of every command: performed where FAULT = 0; where FAULT = 1 there is no command step
(`60_exceptions.md` R96). -/
def command (s : State) (performed : State) : Host.Outcome State Fault Refusal :=
  if s.fault then .fault .commandWhileFaulted else .next performed

/-- The effect of the `rst` input: PAY <- 0, FAULT <- 0, FCODE <- 0, no response (`70_reset_and_hazards.md` R105). -/
def State.applyReset (s : State) : State := ((s.setPay 0).clearFault).noResponse

end Sys2Proof.Machine
end

