-- ==== Sys2Proof/Machine/Construct.lean ====
section
/-! DEFINITION. The construction commands CLR and LOAD (`40_construct.md`). -/

namespace Sys2Proof.Machine

/-- CLR: every byte of PAY <- 0x00 (`40_construct.md` R70). -/
def execClr (s : State) : Host.Outcome State Fault Refusal := command s ((s.setPay 0).respond rspNone)

/-- LOAD: PAYV <- BUF, verbatim and unvalidated (`40_construct.md` R71). -/
def execLoad (buf : PayVec) (s : State) : Host.Outcome State Fault Refusal :=
  command s ((s.setPay buf).respond rspNone)

end Sys2Proof.Machine
end

