-- ==== Sys2Proof/Machine/Equality.lean ====
section
/-! DEFINITION. The equality command EQ (`41_equality.md`). -/

namespace Sys2Proof.Machine

/-- EQ: 1 where all 80 bits of PAYV and BUF agree, else 0, zero-extended (`41_equality.md` R73). -/
def execEq (buf : PayVec) (s : State) : Host.Outcome State Fault Refusal :=
  command s (s.respond (rspWord (if s.pay = buf then 1 else 0) 0))

end Sys2Proof.Machine
end

