-- ==== Sys2Proof/Machine/Binary64.lean ====
section
/-! DEFINITION. IEEE 754 binary64: the format (`00_scope.md` R6), the four operations, each rounded once to nearest,
ties to even (R7), the comparison (R8), truncation (R9), the conversion of an integer (R10) and the constants (R11).
`val` is the rule's own value; the operations compute on `units`, the value counted in units of 2^-1074, which is an
integer for every finite pattern. Mark PRESUMED (log entry 6) where a rule marks its text as general knowledge. -/

namespace Sys2Proof.Machine

/-- The sign s = r[63] (`00_scope.md` R6). -/
def fSign (r : Real64) : Bool := r.getLsbD 63

/-- The biased exponent e = r[62:52] (`00_scope.md` R6). -/
def fExp (r : Real64) : Nat := (r.extractLsb' 52 11).toNat

/-- The fraction f = r[51:0] (`00_scope.md` R6). -/
def fFrac (r : Real64) : Nat := (r.extractLsb' 0 52).toNat

/-- e = 2047 and f != 0 (`00_scope.md` R6). -/
def isNaN (r : Real64) : Bool := fExp r == 2047 && fFrac r != 0

/-- e = 2047 and f = 0 (`00_scope.md` R6). -/
def isInf (r : Real64) : Bool := fExp r == 2047 && fFrac r == 0

/-- Neither an infinity nor a NaN (`00_scope.md` R6). -/
def isFinite (r : Real64) : Bool := fExp r != 2047

/-- `val(r)`, the real number a finite pattern stands for (`00_scope.md` R6). -/
def val (r : Real64) : ℚ :=
  (if fSign r then -1 else 1) *
    (if fExp r = 0 then (fFrac r : ℚ) * 2 ^ (-1074 : ℤ)
     else (1 + (fFrac r : ℚ) * 2 ^ (-52 : ℤ)) * 2 ^ ((fExp r : ℤ) - 1023))

/-- 2^1074: how many units of 2^-1074 make 1. Irreducible, so that no tactic writes the number out. -/
@[irreducible] def unitScale : Nat := 2 ^ 1074

/-- |val(r)| in units of 2^-1074. For an infinity the same formula gives a number above that of every finite
pattern, which is all the comparison of R8 asks of it. -/
def mag (r : Real64) : Nat := if fExp r = 0 then fFrac r else (2 ^ 52 + fFrac r) * 2 ^ (fExp r - 1)

/-- val(r) in units of 2^-1074. -/
def units (r : Real64) : Int := if fSign r then -(mag r : Int) else (mag r : Int)

/-- num / den to the nearest integer, ties to the even one. -/
def roundHalfEven (num den : Nat) : Nat :=
  if 2 * (num % den) < den then num / den
  else if den < 2 * (num % den) then num / den + 1
  else num / den + num / den % 2

/-- The exponent and fraction bits of +infinity (`00_scope.md` R6). -/
def infBits : Nat := 2047 * 2 ^ 52

/-- The exponent and fraction bits (63 of them, as a number) of the binary64 nearest to num / den units of 2^-1074,
ties to the even fraction (`00_scope.md` R7). The spacing at that magnitude is 2^sh units: 1 unit below 2^53 units
(subnormals and the lowest normal binade), doubling with every binade above, so `sh * 2^52` counts the binades passed
and the rounded quotient adds the significand. A result past the largest finite number is the infinity. -/
def roundMag (num den : Nat) : Nat :=
  let sh := (num / den).log2 - 52
  min (sh * 2 ^ 52 + roundHalfEven num (den * 2 ^ sh)) infBits

/-- The pattern with the given sign and the given exponent and fraction bits (`00_scope.md` R6). -/
def pack (neg : Bool) (bits : Nat) : Real64 := BitVec.ofBool neg ++ BitVec.ofNat 63 bits

/-- The rounded sum of two numbers of units. An exact zero is +0 unless both operands are -0. -/
def roundSum (x y : Int) (bothNeg : Bool) : Real64 :=
  pack (if x + y = 0 then bothNeg else decide (x + y < 0)) (roundMag (x + y).natAbs 1)

/-- `fadd(a, b)` (`00_scope.md` R7). -/
def fadd (a b : Real64) : Real64 :=
  if isFinite a && isFinite b then roundSum (units a) (units b) (fSign a && fSign b)
  else Config.undefinedReal .add a b

/-- `fsub(a, b)` (`00_scope.md` R7). -/
def fsub (a b : Real64) : Real64 :=
  if isFinite a && isFinite b then roundSum (units a) (-(units b)) (fSign a && !fSign b)
  else Config.undefinedReal .sub a b

/-- `fmul(a, b)` (`00_scope.md` R7). -/
def fmul (a b : Real64) : Real64 :=
  if isFinite a && isFinite b then pack (xor (fSign a) (fSign b)) (roundMag (mag a * mag b) unitScale)
  else Config.undefinedReal .mul a b

/-- `fdiv(a, b)` (`00_scope.md` R7). -/
def fdiv (a b : Real64) : Real64 :=
  if isFinite a && isFinite b && mag b != 0 then
    pack (xor (fSign a) (fSign b)) (roundMag (mag a * unitScale) (mag b))
  else Config.undefinedReal .div a b

/-- `fle(a, b)`: false when either operand is a NaN; the infinities stand at the ends, the two zeros are equal
(`00_scope.md` R8). -/
def fle (a b : Real64) : Bool := !isNaN a && !isNaN b && decide (units a ≤ units b)

/-- `ftrunc(a)`: the fractional part dropped, toward zero (`00_scope.md` R9). -/
def ftrunc (a : Real64) : Int := if isFinite a then (units a).tdiv unitScale else Config.undefinedTrunc a

/-- `i2f(n)`: the binary64 equal to n, exact for n < 2^24 (`00_scope.md` R10). -/
def i2f (n : Nat) : Real64 := pack false (roundMag (n * unitScale) 1)

/-- C_T_LO, -50.0 (`00_scope.md` R11). -/
def cTLo : Real64 := 0xC049000000000000#64
/-- C_T_HI, the binary64 nearest 154.7 (`00_scope.md` R11). -/
def cTHi : Real64 := 0x4063566666666666#64
/-- C_ZERO, 0.0 (`00_scope.md` R11). -/
def cZero : Real64 := 0x0000000000000000#64
/-- C_H_HI, 100.0 (`00_scope.md` R11). -/
def cHHi : Real64 := 0x4059000000000000#64
/-- C_G_HI, 3.0 (`00_scope.md` R11). -/
def cGHi : Real64 := 0x4008000000000000#64
/-- C_P_LO, -180.0 (`00_scope.md` R11). -/
def cPLo : Real64 := 0xC066800000000000#64
/-- C_P_HI, 180.0 (`00_scope.md` R11). -/
def cPHi : Real64 := 0x4066800000000000#64
/-- C_50, 50 (`00_scope.md` R11). -/
def c50 : Real64 := 0x4049000000000000#64
/-- C_5, 5 (`00_scope.md` R11). -/
def c5 : Real64 := 0x4014000000000000#64
/-- C_100, 100 (`00_scope.md` R11). -/
def c100 : Real64 := 0x4059000000000000#64
/-- C_127, 127 (`00_scope.md` R11). -/
def c127 : Real64 := 0x405FC00000000000#64
/-- C_GAS, the binary64 nearest 42.666 (`00_scope.md` R11). -/
def cGas : Real64 := 0x4045553F7CED9168#64
/-- C_180, 180 (`00_scope.md` R11). -/
def c180 : Real64 := 0x4066800000000000#64
/-- C_10000, 10000 (`00_scope.md` R11). -/
def c10000 : Real64 := 0x40C3880000000000#64

end Sys2Proof.Machine
end

