-- ==== Sys2Proof/Machine/Transform.lean ====
section
/-! DEFINITION. The field transforms: `enc_X` from an engineering value to a raw value, `dec_X` back
(`30_encoding.md` R47 to R54). One rounding at each written operation, in the order written. -/

namespace Sys2Proof.Machine

/-- `enc_VER(n) = n` (`30_encoding.md` R47). -/
def encVer (n : Int) : Int := n

/-- `dec_VER(raw) = raw` (`30_encoding.md` R47). -/
def decVer (raw : Nat) : Nat := raw

/-- `enc_BAT(b)`: 1 for true, 0 for false (`30_encoding.md` R48). -/
def encBat (b : Bool) : Nat := if b then 1 else 0

/-- `dec_BAT(raw) = (raw = 1)` (`30_encoding.md` R48). -/
def decBat (raw : Nat) : Bool := raw == 1

/-- `enc_TEMP(t) = trunc((t + 50) * 5)` (`30_encoding.md` R50). -/
def encTemp (t : Real64) : Int := ftrunc (fmul (fadd t c50) c5)

/-- `dec_TEMP(raw) = raw / 5 - 50` (`30_encoding.md` R50). -/
def decTemp (raw : Nat) : Real64 := fsub (fdiv (i2f raw) c5) c50

/-- `enc_HUM(h) = trunc(h / 100 * 127)` (`30_encoding.md` R51). -/
def encHum (h : Real64) : Int := ftrunc (fmul (fdiv h c100) c127)

/-- `dec_HUM(raw) = raw / 127 * 100` (`30_encoding.md` R51). -/
def decHum (raw : Nat) : Real64 := fmul (fdiv (i2f raw) c127) c100

/-- `enc_GAS(g) = trunc(g * 42.666)` (`30_encoding.md` R52). -/
def encGas (g : Real64) : Int := ftrunc (fmul g cGas)

/-- `dec_GAS(raw) = raw / 42.666` (`30_encoding.md` R52). -/
def decGas (raw : Nat) : Real64 := fdiv (i2f raw) cGas

/-- `enc_GPS(x) = trunc((x + 180) * 10000)`, for latitude and longitude alike (`30_encoding.md` R53, R54). -/
def encGps (x : Real64) : Int := ftrunc (fmul (fadd x c180) c10000)

/-- `dec_GPS(raw) = raw / 10000 - 180` (`30_encoding.md` R53, R54). -/
def decGps (raw : Nat) : Real64 := fsub (fdiv (i2f raw) c10000) c180

/-- The w-bit raw value that is inserted: `enc mod 2^w` (`42_setters.md` R75). -/
def rawOf (w : Nat) (e : Int) : Nat := (e % (2 ^ w : Int)).toNat

end Sys2Proof.Machine
end

