-- ==== Sys2Proof/Machine/Getters.lean ====
section
/-! DEFINITION. The six getters (`43_getters.md`): extract, decode, respond; nothing is written or validated (R82). -/

namespace Sys2Proof.Machine

/-- GETVER (`43_getters.md` R83). -/
def execGetver (s : State) : Host.Outcome State Fault Refusal :=
  command s (s.respond (rspWord (BitVec.ofNat 64 (decVer (s.raw .ver))) 0))

/-- GETBAT: the raw bit, zero-extended (`43_getters.md` R84). -/
def execGetbat (s : State) : Host.Outcome State Fault Refusal :=
  command s (s.respond (rspWord (BitVec.ofNat 64 (s.raw .bat)) 0))

/-- GETTEMP (`43_getters.md` R85). -/
def execGettemp (s : State) : Host.Outcome State Fault Refusal :=
  command s (s.respond (rspWord (decTemp (s.raw .temp)) 0))

/-- GETHUM (`43_getters.md` R86). -/
def execGethum (s : State) : Host.Outcome State Fault Refusal :=
  command s (s.respond (rspWord (decHum (s.raw .hum)) 0))

/-- GETGAS (`43_getters.md` R87). -/
def execGetgas (s : State) : Host.Outcome State Fault Refusal :=
  command s (s.respond (rspWord (decGas (s.raw .gas)) 0))

/-- GETGPS: latitude in RSP.A, longitude in RSP.B (`43_getters.md` R88). -/
def execGetgps (s : State) : Host.Outcome State Fault Refusal :=
  command s (s.respond (rspWord (decGps (s.raw .lat)) (decGps (s.raw .lon))))

end Sys2Proof.Machine
end

