-- ==== Sys2Proof/Machine/Operands.lean ====
section
/-! DEFINITION. The domain checks of the strict setters, on the operand and not on the raw value
(`42_setters.md` R74, `90_conflicts.md` C4). A check passes only where it comes out true, so a NaN fails it. The
operand kinds themselves (real, integer, boolean, buffer, none) are read from the command word in Decode. -/

namespace Sys2Proof.Machine

/-- `fle(lo, x) and fle(x, hi)`: both ends included, false for a NaN (`42_setters.md` R74). -/
def inRange (lo hi x : Real64) : Bool := fle lo x && fle x hi

/-- The version domain, 0 to 15, on the mathematical integer (`42_setters.md` R76, `00_scope.md` R12). -/
def verOk (n : Int) : Bool := decide (0 ≤ n) && decide (n ≤ 15)

/-- The temperature domain [-50.0, 154.7] (`42_setters.md` R77). -/
def tempOk (t : Real64) : Bool := inRange cTLo cTHi t

/-- The humidity domain [0.0, 100.0] (`42_setters.md` R78). -/
def humOk (h : Real64) : Bool := inRange cZero cHHi h

/-- The gas-level domain [0.0, 3.0] (`42_setters.md` R79). -/
def gasOk (g : Real64) : Bool := inRange cZero cGHi g

/-- The coordinate domain [-180.0, 180.0], of latitude and of longitude (`42_setters.md` R80). -/
def gpsOk (x : Real64) : Bool := inRange cPLo cPHi x

end Sys2Proof.Machine
end

