-- ==== Sys2Proof/Machine/Setters.lean ====
section
/-! DEFINITION. The six setters (`42_setters.md`): check, encode, insert, in that order (R74). -/

namespace Sys2Proof.Machine

/-- What a strict setter with one check does: the exception where the check fails, else the field written and the
zero response (`42_setters.md` R74). -/
def strictSet (ok : Bool) (code : BitVec 3) (f : PayField) (e : Int) (s : State) : State :=
  if ok then (s.setField f (rawOf f.width e)).respond rspNone else s.raisePrecondition code

/-- SETVER (`42_setters.md` R76). -/
def execSetver (n : Int) (s : State) : Host.Outcome State Fault Refusal :=
  command s (strictSet (verOk n) codeVersion .ver (encVer n) s)

/-- SETTEMP (`42_setters.md` R77). -/
def execSettemp (t : Real64) (s : State) : Host.Outcome State Fault Refusal :=
  command s (strictSet (tempOk t) codeTemperature .temp (encTemp t) s)

/-- SETHUM (`42_setters.md` R78). -/
def execSethum (h : Real64) (s : State) : Host.Outcome State Fault Refusal :=
  command s (strictSet (humOk h) codeHumidity .hum (encHum h) s)

/-- SETGAS (`42_setters.md` R79). -/
def execSetgas (g : Real64) (s : State) : Host.Outcome State Fault Refusal :=
  command s (strictSet (gasOk g) codeGas .gas (encGas g) s)

/-- SETGPS: latitude checked first, both before any write, both fields written or neither (`42_setters.md` R80,
`60_exceptions.md` R98). -/
def execSetgps (lat lon : Real64) (s : State) : Host.Outcome State Fault Refusal :=
  command s
    (if gpsOk lat then
      if gpsOk lon then
        ((s.setField .lat (rawOf 24 (encGps lat))).setField .lon (rawOf 24 (encGps lon))).respond rspNone
      else s.raisePrecondition codeLongitude
    else s.raisePrecondition codeLatitude)

/-- SETBAT: not strict, one bit written (`42_setters.md` R81). -/
def execSetbat (b : Bool) (s : State) : Host.Outcome State Fault Refusal :=
  command s ((s.setField .bat (encBat b)).respond rspNone)

end Sys2Proof.Machine
end

