-- ==== Sys2Proof/Machine/View.lean ====
section
/-! DEFINITION. The buffer view command VIEW (`44_view.md`). -/

namespace Sys2Proof.Machine

/-- VIEW: a snapshot of the ten bytes and their count (`44_view.md` R89). -/
def execView (s : State) : Host.Outcome State Fault Refusal := command s (s.respond (rspView s.pay))

end Sys2Proof.Machine
end

