-- ==== Sys2Proof/Machine/Dispatch.lean ====
section
/-! DEFINITION. The meaning of each command, one arm for each constructor of Instr. -/

namespace Sys2Proof.Machine

/-- One command performed (`00_scope.md` R4; the arms follow `30_encoding.md` R62). -/
def exec (i : Instr) (s : State) : Host.Outcome State Fault Refusal :=
  match i with
  | .clr => Sys2Proof.Machine.execClr s
  | .load buf => Sys2Proof.Machine.execLoad buf s
  | .eq buf => Sys2Proof.Machine.execEq buf s
  | .setver n => Sys2Proof.Machine.execSetver n s
  | .settemp t => Sys2Proof.Machine.execSettemp t s
  | .sethum h => Sys2Proof.Machine.execSethum h s
  | .setgas g => Sys2Proof.Machine.execSetgas g s
  | .setgps lat lon => Sys2Proof.Machine.execSetgps lat lon s
  | .setbat b => Sys2Proof.Machine.execSetbat b s
  | .getver => Sys2Proof.Machine.execGetver s
  | .getbat => Sys2Proof.Machine.execGetbat s
  | .gettemp => Sys2Proof.Machine.execGettemp s
  | .gethum => Sys2Proof.Machine.execGethum s
  | .getgas => Sys2Proof.Machine.execGetgas s
  | .getgps => Sys2Proof.Machine.execGetgps s
  | .view => Sys2Proof.Machine.execView s

end Sys2Proof.Machine
end

