-- ==== Sys2Proof/Machine/Port.lean ====
section
/-! DEFINITION. What the block does with what the host presents at its input ports (`30_encoding.md` R57, R60, R61,
`70_reset_and_hazards.md` R105). -/

namespace Sys2Proof.Machine

/-- Nothing is presented: the block keeps all of its state (`60_exceptions.md` R102) and no response is produced. -/
def State.idle (s : State) : State := s.noResponse

/-- A command word presented to a faulted block: not performed, changes nothing, no response (`30_encoding.md` R61,
`60_exceptions.md` R96; log entry 3). -/
def State.notTaken (s : State) : State := s.noResponse

/-- The block's answer to one presentation: a reset request wins over a command word that comes with it; a faulted
block takes no command word; otherwise the command the word spells is performed. -/
def serve (p : PortInput) (s : State) : Host.Outcome State Fault Refusal :=
  if p.rst then .next s.applyReset
  else
    match p.cmd with
    | none => .next s.idle
    | some w => if s.fault then .next s.notTaken else exec (decode w) s

/-- The host's next presentation served, the rest left for later steps; idle where the host has no more (log entry
1). -/
def serveNext (s : State) : Host.Outcome State Fault Refusal :=
  match s.inputs with
  | [] => .next s.idle
  | p :: rest => serve p { s with inputs := rest }

/-- The state in which the host presents `w` next, before anything else it has. -/
def State.present (w : CmdWord) (s : State) : State := { s with inputs := ⟨false, some w⟩ :: s.inputs }

end Sys2Proof.Machine
end

