-- ==== Sys2Proof/Machine/Step.lean ====
section
/-! DEFINITION. One step of the block with its ports, and how a command word is placed before it. -/

namespace Sys2Proof.Machine

/-- One transaction at the ports (`00_scope.md` R4, `30_encoding.md` R60). -/
def step (s : State) : Host.Outcome State Fault Refusal := serveNext s

/-- The block fetches nothing: the host issues each command word (`10_state.md` R24). This is `s` with the host
issuing the word whose number is `w` next; a command word has one width, so `nbits` adds nothing. -/
def State.withFetchWord (s : State) (_nbits w : Nat) : State := s.present (BitVec.ofNat 132 w)

end Sys2Proof.Machine
end

