-- ==== Sys2Proof/Machine/Pseudo.lean ====
section
/-! DEFINITION. The pseudo-operations of `30_encoding.md` R67, each a sequence of commands over two instances of the
block, the destination (or first) instance first in every pair (`40_construct.md` R72, `10_state.md` R29). -/

namespace Sys2Proof.Machine

/-- The upper 80 bits of a response: what VIEW returned, in the place LOAD and EQ take it (`44_view.md` R89). -/
def viewBytes (rsp : RspWord) : PayVec := rsp.extractLsb' 48 80

/-- VIEW on `x` giving bytes v, then a command with operand v on `y`; a command that is not taken ends it. -/
def viewThen (cmd : PayVec → State → Host.Outcome State Fault Refusal) (y x : State) :
    Host.Outcome (State × State) Fault Refusal :=
  match execView x with
  | .next x' =>
    match cmd (viewBytes (rspView x.pay)) y with
    | .next y' => .next (y', x')
    | .fault e => .fault e
    | .refused r => .refused r
  | .fault e => .fault e
  | .refused r => .refused r

/-- `COPY Y, X`: VIEW on X giving v, then LOAD v on Y (`30_encoding.md` R67). -/
def pseudoCopy (y x : State) : Host.Outcome (State × State) Fault Refusal := viewThen execLoad y x

/-- `MOVE Y, X`: the same as COPY; X keeps its bytes (`30_encoding.md` R67). -/
def pseudoMove (y x : State) : Host.Outcome (State × State) Fault Refusal := viewThen execLoad y x

/-- `NEW`: CLR (`30_encoding.md` R67). -/
def pseudoNew (s : State) : Host.Outcome State Fault Refusal := execClr s

/-- `EQP X, Y`: VIEW on Y giving v, then EQ v on X (`30_encoding.md` R67). -/
def pseudoEqp (x y : State) : Host.Outcome (State × State) Fault Refusal := viewThen execEq x y

end Sys2Proof.Machine
end

