-- ==== Sys2Proof/Safety.lean ====
section
/-! DEFINITION. What counts as a good run, and the predicates claims are stated in. -/

namespace Sys2Proof.Machine

/-- A real operand is a number in the closed interval [lo, hi] (`42_setters.md` R74), said with the values of R6. -/
def realIn (lo hi : ℚ) (x : Real64) : Bool := isFinite x && decide (lo ≤ val x) && decide (val x ≤ hi)

/-- The value of C_T_HI, as the table of `00_scope.md` R11 prints it. -/
def tempTop : ℚ := 2721511181071155 / 2 ^ 44

end Sys2Proof.Machine

namespace Sys2Proof

open Machine

/-- LOAD is the one command that can put any bits into PAY (`30_encoding.md` R64, `40_construct.md` R71). -/
def Instr.isLoad : Instr → Bool
  | .load _ => true
  | .clr | .eq _ | .setver _ | .settemp _ | .sethum _ | .setgas _ | .setgps _ _ | .setbat _ => false
  | .getver | .getbat | .gettemp | .gethum | .getgas | .getgps | .view => false

/-- The commands that only read PAY (`10_state.md` R20's table, `20_memory.md` R40). -/
def Instr.isRead : Instr → Bool
  | .eq _ | .getver | .getbat | .gettemp | .gethum | .getgas | .getgps | .view => true
  | .clr | .load _ | .setver _ | .settemp _ | .sethum _ | .setgas _ | .setgps _ _ | .setbat _ => false

/-- The fields a command may write (`10_state.md` R20's table). -/
def Instr.writes : Instr → List PayField
  | .clr | .load _ => PayField.all
  | .setver _ => [.ver]
  | .settemp _ => [.temp]
  | .sethum _ => [.hum]
  | .setgas _ => [.gas]
  | .setgps _ _ => [.lat, .lon]
  | .setbat _ => [.bat]
  | .eq _ | .getver | .getbat | .gettemp | .gethum | .getgas | .getgps | .view => []

/-- The cause a command faults with, or none, as the table of `60_exceptions.md` R91 has it, latitude first (R98). -/
def Instr.violation : Instr → Option (BitVec 3)
  | .setver n => if 0 ≤ n ∧ n ≤ 15 then none else some 1
  | .settemp t => if realIn (-50) tempTop t then none else some 2
  | .sethum h => if realIn 0 100 h then none else some 3
  | .setgas g => if realIn 0 3 g then none else some 4
  | .setgps lat lon =>
    if realIn (-180) 180 lat then (if realIn (-180) 180 lon then none else some 6) else some 5
  | .clr | .load _ | .eq _ | .setbat _ => none
  | .getver | .getbat | .gettemp | .gethum | .getgas | .getgps | .view => none

end Sys2Proof

namespace Sys2Proof.Machine

/-- The block is operating: FAULT = 0 (`10_state.md` R22). -/
def State.operating (s : State) : Bool := !s.fault

/-- FAULT and FCODE agree: FCODE is 0 while FAULT = 0 and one of 1 to 6 while FAULT = 1; 7 never occurs
(`10_state.md` R23, `60_exceptions.md` R91). -/
def State.latchOk (s : State) : Bool :=
  if s.fault then decide (1 ≤ s.fcode.toNat) && decide (s.fcode.toNat ≤ 6) else s.fcode == 0

/-- Commands performed one after another. The result is some state only where every command was accepted and
performed with FAULT = 0 throughout (`60_exceptions.md` R96). -/
def runToCompletion : List Instr → State → Option State
  | [], s => if s.fault then none else some s
  | i :: is, s =>
    match exec i s with
    | .next t => runToCompletion is t
    | .fault _ => none
    | .refused _ => none

/-- The host has no LOAD left to present. -/
def State.noLoadAhead (s : State) : Bool :=
  s.inputs.all fun p =>
    match p.cmd with
    | none => true
    | some w => !Instr.isLoad (decode w)

/-- Latitude and longitude hold raw values a setter can produce, at most 3600000 (`30_encoding.md` R53, R64). -/
def State.gpsProducible (s : State) : Bool := decide (s.raw .lat ≤ 3600000) && decide (s.raw .lon ≤ 3600000)

end Sys2Proof.Machine
end

