-- ==== Sys2Proof/Certificates/Slice0/Obligations.lean ====
section
/-! DEFINITION. The statements about the model, drawn from the numbered rules of spec/. Nothing is proved here. -/

namespace Sys2Proof.Claims

open Sys2Proof.Machine

/-- Every byte of PAY outside the list, FAULT, FCODE and the host's remaining presentations are as before. -/
def KeptBut (bytes : List (Fin 10)) (s t : State) : Prop :=
  (∀ i, i ∉ bytes → payByte t.pay i = payByte s.pay i) ∧
    t.fault = s.fault ∧ t.fcode = s.fcode ∧ t.inputs = s.inputs

/-- `s` after `raise PreconditionViolation(code)` (`60_exceptions.md` R94, R95): PAY not written. -/
def Raised (code : BitVec 3) (s : State) : State := { s with fault := true, fcode := code, rsp := some 0 }

/-- Byte i of the payload after raw value v is inserted into field f. -/
def After (pay : PayVec) (f : PayField) (v : Nat) (i : Fin 10) : Byte := payByte (writeField pay f v) i

/-- The opcode field of a command word, CMD[131:128] (`30_encoding.md` R57). -/
def HasOp (op : BitVec 4) (w : CmdWord) : Prop := w.extractLsb' 128 4 = op

/-- The largest finite binary64. -/
def maxFinite : Real64 := 0x7FEFFFFFFFFFFFFF#64

/-- r is the binary64 nearest to the real number x, ties to the even fraction (`00_scope.md` R7), for an x no larger
than the largest finite number. -/
def Nearest (r : Real64) (x : ℚ) : Prop :=
  |x| ≤ val maxFinite →
    isFinite r = true ∧ (∀ c, isFinite c = true → |val r - x| ≤ |val c - x|) ∧
      (∀ c, isFinite c = true → |val c - x| = |val r - x| → val c ≠ val r → fFrac r % 2 = 0)

/-- A value read back after encoding and decoding is below the value set by less than one step, and above it by
rounding only, here 10^-12 (`30_encoding.md` R55). -/
def WithinStep (step : ℚ) (set read : Real64) : Prop :=
  isFinite read = true ∧ val read ≤ val set + 1 / 10 ^ 12 ∧ val set < val read + step + 1 / 10 ^ 12

end Sys2Proof.Claims

open Sys2Proof Sys2Proof.Machine Sys2Proof.Claims

/-! ### Command words -/

/-- Decoding the canonical word of a well-formed command gives the command back (`30_encoding.md` R57, R58, R62). -/
def Obligations.DecodeEncodeRoundTrip : Prop := ∀ i : Instr, i.wf = true → decode (encode i) = i

/-- Two words spell the same command exactly where they agree on the opcode and on the bits its row makes operands:
every used bit matters and every other bit is ignored (`30_encoding.md` R57, R58). -/
def Obligations.ExactlyTheUsedBitsMatter : Prop :=
  ∀ w w' : CmdWord, decode w = decode w' ↔ w &&& usedBits (cmdOp w) = w' &&& usedBits (cmdOp w)

/-- Every command word matches one row of the opcode table and no other, and decodes to that row's command
(`30_encoding.md` R62, R63). -/
def Obligations.EveryWordSpellsExactlyOneCommand : Prop :=
  ∀ w : CmdWord, (opcodeTable.filter fun r => w &&& opcodeMask == r.2).map Prod.fst = [(decode w).mnemonic]

/-- Encoding the command a word spells gives the word back with its ignored bits zero (`30_encoding.md` R57, R66). -/
def Obligations.EncodeDecodeClearsIgnoredBits : Prop :=
  ∀ w : CmdWord, encode (decode w) = w &&& usedBits (cmdOp w)

/-- Every command word spells a well-formed command, and a number is decoded exactly where it fits the 132 bits of a
command word (`30_encoding.md` R57, R63). -/
def Obligations.DecoderIsTotalOnCommandWords : Prop :=
  (∀ w : CmdWord, (decode w).wf = true) ∧
  (∀ nbits n : Nat, n < 2 ^ 132 → decodeTableWord nbits n = some (decode (BitVec.ofNat 132 n))) ∧
  (∀ nbits n : Nat, 2 ^ 132 ≤ n → decodeTableWord nbits n = none)

/-- Words of `95_test_vectors.md` section 3 (VW1 to VW9, VW16 to VW18) decode to the commands the table prints. -/
def Obligations.SampleWordsDecode : Prop :=
  decode 0x000000000000000000000000000000000#132 = .clr ∧
  decode 0x1A000006E33048C0C74DD000000000000#132 = .load 0xA000006E33048C0C74DD#80 ∧
  decode 0x2A000006E33048C0C74DD000000000000#132 = .eq 0xA000006E33048C0C74DD#80 ∧
  decode 0x3000000000000000A0000000000000000#132 = .setver 10 ∧
  decode 0x440358000000000000000000000000000#132 = .settemp 0x4035800000000000#64 ∧
  decode 0x540468000000000000000000000000000#132 = .sethum 0x4046800000000000#64 ∧
  decode 0x64004CCCCCCCCCCCD0000000000000000#132 = .setgas 0x4004CCCCCCCCCCCD#64 ∧
  decode 0x740634B3333333333C058975DCC63F141#132 = .setgps 0x40634B3333333333#64 0xC058975DCC63F141#64 ∧
  decode 0x800000000000000010000000000000000#132 = .setbat true ∧
  decode 0xF00000000000000000000000000000000#132 = .view ∧
  decode 0x9FFFFFFFFFFFFFFFFFFFFFFFFFFFFFFFF#132 = .getver ∧
  decode 0x3DEADBEEF0000000F0000000000000001#132 = .setver 15

/-! ### The ports, the fault latch and reset -/

/-- While FAULT = 0 the step that meets a command word performs the command the word spells, with the word taken from
the host; a word placed before the step is the one performed (`30_encoding.md` R60, `00_scope.md` R4). The model's own
choices: the host's presentations stand in a list of the state (log entry 1), and a number of 2^132 or more is placed as
its low 132 bits (log entry 5). -/
def Obligations.StepPerformsTheDecodedCommand : Prop :=
  (∀ (s : State) (w : CmdWord) (rest : List PortInput), s.fault = false → s.inputs = ⟨false, some w⟩ :: rest →
    step s = exec (decode w) { s with inputs := rest }) ∧
  (∀ (s : State) (nbits n : Nat), s.fault = false →
    step (s.withFetchWord nbits n) = exec (decode (BitVec.ofNat 132 n)) s)

/-- A reset request, alone or with a command word, in any state: PAY, FAULT and FCODE become zero, a command word that
comes with it is not performed, and afterwards the block accepts every command; no other step clears FAULT
(`70_reset_and_hazards.md` R105). The model's own choices: that presentation alone is taken from the host's list, which
reset does not empty (log entry 1), and no response stands after the step (log entry 2). -/
def Obligations.ResetClearsTheBlockAndWins : Prop :=
  (∀ (s : State) (c : Option CmdWord) (rest : List PortInput), s.inputs = ⟨true, c⟩ :: rest →
    ∃ t, step s = .next t ∧ (∀ i, payByte t.pay i = 0x00#8) ∧ t.fault = false ∧ t.fcode = 0 ∧
      t.inputs = rest ∧ t.rsp = none ∧ ∀ i, ∃ u, exec i t = .next u) ∧
  (∀ s t : State, s.fault = true → step s = .next t → t.fault = false → ∃ c rest, s.inputs = ⟨true, c⟩ :: rest)

/-- While FAULT = 1 no command has a step (`60_exceptions.md` R96), and a command word presented at the port is dropped:
PAY, FAULT and FCODE keep their values and there is no response; the one input answered is a reset request
(`30_encoding.md` R61). The model's own reading: a command's meaning is then the fault `commandWhileFaulted`, and the
dropped word is a step after which it is gone from the host's list (log entries 1 and 3). -/
def Obligations.FaultedBlockTakesNoCommand : Prop :=
  (∀ (i : Instr) (s : State), s.fault = true → exec i s = .fault .commandWhileFaulted) ∧
  (∀ (s : State) (w : CmdWord) (rest : List PortInput), s.fault = true → s.inputs = ⟨false, some w⟩ :: rest →
    step s = .next { s with inputs := rest, rsp := none }) ∧
  (∀ (s : State) (c : Option CmdWord) (rest : List PortInput), s.fault = true → s.inputs = ⟨true, c⟩ :: rest →
    ∃ t, step s = .next t ∧ t.fault = false)

/-- Where the host presents nothing the block keeps PAY, FAULT and FCODE (`60_exceptions.md` R102; that such a step
exists is the model's choice, log entry 1, and that no response then stands is log entry 2). -/
def Obligations.IdleKeepsTheBlock : Prop :=
  (∀ s : State, s.inputs = [] → step s = .next { s with rsp := none }) ∧
  (∀ (s : State) (rest : List PortInput), s.inputs = ⟨false, none⟩ :: rest →
    step s = .next { s with inputs := rest, rsp := none })

/-- From a faulted state a step either is a reset or leaves PAY, FAULT and FCODE as they are and gives no response:
there is no other way out (`10_state.md` R22, `60_exceptions.md` R97; that a dropped word is a step at all is the
model's reading, log entry 3, that an idle port is one its choice, log entry 1, and the field `rsp` is log entry 2). -/
def Obligations.OnlyResetLeavesTheFaultedState : Prop :=
  ∀ s t : State, s.fault = true → step s = .next t →
    (t.fault = true ∧ t.fcode = s.fcode ∧ t.pay = s.pay ∧ t.rsp = none) ∨
    (t.fault = false ∧ t.fcode = 0 ∧ t.pay = 0 ∧ ∃ c rest, s.inputs = ⟨true, c⟩ :: rest)

/-- FAULT and FCODE agree after every step where they agreed before: FCODE is 0 exactly while FAULT = 0, and 7 never
occurs (`10_state.md` R23, `60_exceptions.md` R91; the steps without a command are log entries 1 and 3). -/
def Obligations.FaultAndCodeStayConsistent : Prop :=
  ∀ s t : State, s.latchOk = true → step s = .next t → t.latchOk = true

/-- As long as the host presents no LOAD, a payload with zero reserved bits and coordinates a setter can produce stays
one at every step (`30_encoding.md` R49, R53, R64; the host's presentations are the model's own field, log entry 1). -/
def Obligations.PayloadStaysProducibleWithoutLoad : Prop :=
  ∀ s t : State, s.noLoadAhead = true → s.gpsProducible = true → s.raw .rsv = 0 → step s = .next t →
    t.noLoadAhead = true ∧ t.gpsProducible = true ∧ t.raw .rsv = 0

/-- After reset every byte of PAY is 0x00, FAULT and FCODE are 0, every field holds raw value 0 and decodes to what the
table prints (`10_state.md` R28). -/
def Obligations.ResetStateIsAllZero : Prop :=
  (∀ i, payByte State.reset.pay i = 0x00#8) ∧ State.reset.fault = false ∧ State.reset.fcode = 0 ∧
  (∀ f, State.reset.raw f = 0) ∧
  (decVer 0 = 0 ∧ decBat 0 = false ∧ decTemp 0 = cTLo ∧ decHum 0 = cZero ∧ decGas 0 = cZero ∧ decGps 0 = cPLo)

/-- The state after reset meets the two invariants that every step keeps, `FaultAndCodeStayConsistent` and
`PayloadStaysProducibleWithoutLoad`. That the host has presented nothing is the model's own field (log entry 1). -/
def Obligations.ResetStateMeetsTheInvariants : Prop :=
  State.reset.latchOk = true ∧ State.reset.gpsProducible = true ∧ State.reset.raw .rsv = 0 ∧
  State.reset.noLoadAhead = true

/-- The block after reset is the block that has just performed CLR with FAULT = 0, and compares equal to ten zero
bytes (`70_reset_and_hazards.md` section 1, inferred there from the rules of reset and CLR). -/
def Obligations.ResetEqualsClear : Prop :=
  ∀ s r : State, s.fault = false → s.latchOk = true →
    ∃ t, exec .clr s = .next t ∧ t.pay = r.applyReset.pay ∧ t.fault = r.applyReset.fault ∧
      t.fcode = r.applyReset.fcode ∧
      exec (.eq 0) r.applyReset = .next { r.applyReset with rsp := some ((1#64 ++ 0#64 : BitVec 128)) }

/-- Which commands fault, on which operands and with which code; what a faulting command does, all of it; and that a
command that does not fault leaves FAULT and FCODE. Domains are said with real values, a NaN or an infinity outside
(`60_exceptions.md` R91, R92, R93, R95). -/
def Obligations.FaultsAreExactlyTheTable : Prop :=
  ∀ (i : Instr) (s : State), s.fault = false →
    ∃ t, exec i s = .next t ∧
      (∀ c, i.violation = some c → t = Raised c s) ∧
      (i.violation = none → t.fault = false ∧ t.fcode = s.fcode ∧ t.inputs = s.inputs)

/-- A list of commands runs to completion exactly where the block was operating and no command's operand is outside
its domain (`60_exceptions.md` R96, R97). -/
def Obligations.RunsCompleteIffNoViolation : Prop :=
  ∀ (is : List Instr) (s : State),
    (runToCompletion is s).isSome = true ↔ s.fault = false ∧ ∀ i ∈ is, i.violation = none

/-! ### Fields and bytes -/

/-- Every wire position belongs to exactly one field, and the widths sum to 80 (`20_memory.md` section 3; the spec marks
the tiling as its own inference from the table of positions). -/
def Obligations.FieldsTileThePayload : Prop :=
  (∀ p : Fin 80, ∃! f : PayField, f.pos ≤ p.val ∧ p.val < f.pos + f.width) ∧
  (PayField.all.map PayField.width).sum = 80 ∧ ∀ f : PayField, f ∈ PayField.all

/-- A field reads back what was inserted and every other field, the reserved one included, reads as before
(`20_memory.md` section 4, which marks this as inferred from the tiling and the two primitives). -/
def Obligations.InsertThenExtractIsolation : Prop :=
  ∀ (pay : PayVec) (f : PayField) (v : Nat), v < 2 ^ f.width →
    readField (writeField pay f v) f = v ∧ ∀ g, g ≠ f → readField (writeField pay f v) g = readField pay g

/-- The raw value of a field is its slice of PAYV, and field by field what the rule spells from the bytes of PAY
(`20_memory.md` R35). -/
def Obligations.ExtractByBytes : Prop :=
  (∀ (pay : PayVec) (f : PayField),
    readField pay f = pay.toNat / 2 ^ (80 - f.pos - f.width) % 2 ^ f.width) ∧
  ∀ (pay : PayVec) (b : Fin 10 → Nat), (∀ i, b i = (payByte pay i).toNat) →
    readField pay .ver = b 0 >>> 4 ∧ readField pay .bat = (b 0 >>> 3) &&& 1 ∧ readField pay .rsv = b 0 &&& 7 ∧
    readField pay .temp = (b 1 <<< 2) ||| (b 2 >>> 6) ∧ readField pay .hum = ((b 2 &&& 0x3F) <<< 1) ||| (b 3 >>> 7) ∧
    readField pay .gas = b 3 &&& 0x7F ∧ readField pay .lat = (b 4 <<< 16) ||| (b 5 <<< 8) ||| b 6 ∧
    readField pay .lon = (b 7 <<< 16) ||| (b 8 <<< 8) ||| b 9

/-- What an insert of each field a command writes does to the bytes of PAY, by the masks of the rule; every byte not
named is as before (`20_memory.md` R36). -/
def Obligations.InsertByBytes : Prop :=
  ∀ (pay : PayVec) (v : Nat) (old : Fin 10 → Byte), (∀ i, old i = payByte pay i) →
    (v < 2 ^ 4 → After pay .ver v 0 = (old 0 &&& ~~~0xF0#8) ||| BitVec.ofNat 8 (v <<< 4) ∧
      ∀ i, i ∉ [0] → After pay .ver v i = old i) ∧
    (v < 2 ^ 1 → After pay .bat v 0 = (old 0 &&& ~~~0x08#8) ||| BitVec.ofNat 8 (v <<< 3) ∧
      ∀ i, i ∉ [0] → After pay .bat v i = old i) ∧
    (v < 2 ^ 10 → After pay .temp v 1 = BitVec.ofNat 8 (v >>> 2) ∧
      After pay .temp v 2 = (old 2 &&& ~~~0xC0#8) ||| BitVec.ofNat 8 ((v &&& 3) <<< 6) ∧
      ∀ i, i ∉ [1, 2] → After pay .temp v i = old i) ∧
    (v < 2 ^ 7 → After pay .hum v 2 = (old 2 &&& ~~~0x3F#8) ||| BitVec.ofNat 8 (v >>> 1) ∧
      After pay .hum v 3 = (old 3 &&& ~~~0x80#8) ||| BitVec.ofNat 8 ((v &&& 1) <<< 7) ∧
      ∀ i, i ∉ [2, 3] → After pay .hum v i = old i) ∧
    (v < 2 ^ 7 → After pay .gas v 3 = (old 3 &&& ~~~0x7F#8) ||| BitVec.ofNat 8 v ∧
      ∀ i, i ∉ [3] → After pay .gas v i = old i) ∧
    (v < 2 ^ 24 → After pay .lat v 4 = BitVec.ofNat 8 (v >>> 16) ∧
      After pay .lat v 5 = BitVec.ofNat 8 ((v >>> 8) &&& 0xFF) ∧ After pay .lat v 6 = BitVec.ofNat 8 (v &&& 0xFF) ∧
      ∀ i, i ∉ [4, 5, 6] → After pay .lat v i = old i) ∧
    (v < 2 ^ 24 → After pay .lon v 7 = BitVec.ofNat 8 (v >>> 16) ∧
      After pay .lon v 8 = BitVec.ofNat 8 ((v >>> 8) &&& 0xFF) ∧ After pay .lon v 9 = BitVec.ofNat 8 (v &&& 0xFF) ∧
      ∀ i, i ∉ [7, 8, 9] → After pay .lon v i = old i)

/-- `MemRead` and `MemWrite` of n bytes at addr: big-endian, defined exactly for addr + n <= 10, and a write keeps
every byte outside it (`00_scope.md` section 6.3). -/
def Obligations.BytesReadAndWriteBigEndian : Prop :=
  ∀ (pay : PayVec) (addr n : Nat) (v : BitVec (8 * n)),
    (addr + n ≤ 10 → ∃ q, memWrite pay addr n v = some q ∧ memRead q addr n = some v ∧
      (∀ (k : Nat) (i : Fin 10), k < n → i.val = addr + k → payByte q i = v.extractLsb' (8 * (n - k) - 8) 8) ∧
      (∀ i : Fin 10, i.val < addr ∨ addr + n ≤ i.val → payByte q i = payByte pay i)) ∧
    (10 < addr + n → memWrite pay addr n v = none ∧ memRead pay addr n = none)

/-- A command changes no field outside its own list: setting a field never alters the bits of another
(`20_memory.md` R36, `42_setters.md` R74, `70_reset_and_hazards.md` R112). -/
def Obligations.NoCommandTouchesOtherFields : Prop :=
  ∀ (i : Instr) (s t : State) (f : PayField), exec i s = .next t → f ∉ i.writes →
    readField t.pay f = readField s.pay f ∧ t.inputs = s.inputs

/-- The reserved bits are ordinary storage: zero after CLR and reset, copied by LOAD, left alone by every other
command, compared by EQ, returned by VIEW (`30_encoding.md` R49). -/
def Obligations.ReservedBitsAreOrdinaryStorage : Prop :=
  (∀ s t : State, exec .clr s = .next t → t.raw .rsv = 0) ∧
  (∀ s : State, s.applyReset.raw .rsv = 0) ∧
  (∀ (b : PayVec) (s t : State), exec (.load b) s = .next t → t.raw .rsv = readField b .rsv) ∧
  (∀ (i : Instr) (s t : State), i ≠ .clr → i.isLoad = false → exec i s = .next t → t.raw .rsv = s.raw .rsv) ∧
  (∀ (s : State) (v : Nat), s.fault = false → v < 8 → v ≠ s.raw .rsv →
    exec (.eq (writeField s.pay .rsv v)) s = .next { s with rsp := some 0 }) ∧
  (∀ s : State, s.fault = false →
    ∃ r : RspWord, exec .view s = .next { s with rsp := some r } ∧ (r.extractLsb' 120 3).toNat = s.raw .rsv)

/-! ### The numbers -/

/-- The four operations give the nearest binary64 to the exact result, ties to even (`00_scope.md` R7). -/
def Obligations.ArithmeticIsCorrectlyRounded : Prop :=
  ∀ a b : Real64, isFinite a = true → isFinite b = true →
    Nearest (fadd a b) (val a + val b) ∧ Nearest (fsub a b) (val a - val b) ∧ Nearest (fmul a b) (val a * val b) ∧
    (val b ≠ 0 → Nearest (fdiv a b) (val a / val b))

/-- The comparison: by value on finite numbers, false on a NaN, the infinities at the ends (`00_scope.md` R8). -/
def Obligations.CompareFollowsTheValues : Prop :=
  (∀ a b : Real64, isFinite a = true → isFinite b = true → (fle a b = true ↔ val a ≤ val b)) ∧
  (∀ a b : Real64, isNaN a = true ∨ isNaN b = true → fle a b = false) ∧
  (∀ a : Real64, isNaN a = false → fle a 0x7FF0000000000000#64 = true ∧ fle 0xFFF0000000000000#64 a = true) ∧
  (∀ a : Real64, isFinite a = true → fle 0x7FF0000000000000#64 a = false ∧ fle a 0xFFF0000000000000#64 = false) ∧
  fle 0x7FF0000000000000#64 0xFFF0000000000000#64 = false

/-- Truncation goes toward zero and drops less than 1 (`00_scope.md` R9). -/
def Obligations.TruncationGoesTowardZero : Prop :=
  ∀ a : Real64, isFinite a = true →
    (0 ≤ val a → (ftrunc a : ℚ) ≤ val a ∧ val a < (ftrunc a : ℚ) + 1) ∧
    (val a ≤ 0 → val a ≤ (ftrunc a : ℚ) ∧ (ftrunc a : ℚ) - 1 < val a)

/-- Every raw value converts to the real number equal to it (`00_scope.md` R10). -/
def Obligations.IntegerConversionIsExact : Prop :=
  ∀ n : Nat, n < 2 ^ 24 → isFinite (i2f n) = true ∧ val (i2f n) = (n : ℚ)

/-- The constants have the values the table prints, and the two inexact ones are nearest to their literals
(`00_scope.md` R11). -/
def Obligations.ConstantsAreTheNearestReals : Prop :=
  (val cTLo = -50 ∧ val cZero = 0 ∧ val cHHi = 100 ∧ val cGHi = 3 ∧ val cPLo = -180 ∧ val cPHi = 180) ∧
  (val c50 = 50 ∧ val c5 = 5 ∧ val c100 = 100 ∧ val c127 = 127 ∧ val c180 = 180 ∧ val c10000 = 10000) ∧
  (val cTHi = 2721511181071155 / 2 ^ 44 ∧ val cGas = 750588209771053 / 2 ^ 44) ∧
  (∀ c : Real64, isFinite c = true → |val cTHi - 1547 / 10| ≤ |val c - 1547 / 10|) ∧
  (∀ c : Real64, isFinite c = true → |val cGas - 42666 / 1000| ≤ |val c - 42666 / 1000|)

/-- On its domain every encode function yields a raw value that fits its field, with the ends the table prints, so
that the reduction before the insert changes nothing (`42_setters.md` section 1, which marks this as inferred from the
transforms). -/
def Obligations.EncodedValuesFitTheirFields : Prop :=
  (∀ n : Int, verOk n = true → 0 ≤ encVer n ∧ encVer n ≤ 15) ∧
  (∀ t : Real64, tempOk t = true → 0 ≤ encTemp t ∧ encTemp t ≤ 1023) ∧
  (∀ h : Real64, humOk h = true → 0 ≤ encHum h ∧ encHum h ≤ 127) ∧
  (∀ g : Real64, gasOk g = true → 0 ≤ encGas g ∧ encGas g ≤ 127) ∧
  (∀ x : Real64, gpsOk x = true → 0 ≤ encGps x ∧ encGps x ≤ 3600000) ∧
  (encTemp cTLo = 0 ∧ encTemp cTHi = 1023 ∧ encHum cZero = 0 ∧ encHum cHHi = 127) ∧
  (encGas cZero = 0 ∧ encGas cGHi = 127 ∧ encGps cPLo = 0 ∧ encGps cPHi = 3600000)

/-- Encoding keeps the order of operands, in each domain (`42_setters.md` section 1: "each operation is monotonic
non-decreasing in its operand", part of the spec's own inference there). -/
def Obligations.EncodersAreMonotone : Prop :=
  ∀ x y : Real64, fle x y = true →
    (tempOk x = true → tempOk y = true → encTemp x ≤ encTemp y) ∧
    (humOk x = true → humOk y = true → encHum x ≤ encHum y) ∧
    (gasOk x = true → gasOk y = true → encGas x ≤ encGas y) ∧
    (gpsOk x = true → gpsOk y = true → encGps x ≤ encGps y)

/-- Every raw value of every real-valued field decodes to a finite number, within the ends of the getters' table; version
and battery are not real-valued (`30_encoding.md` section A3 and `43_getters.md` section 1, both marked there as
inferred). -/
def Obligations.EveryRawValueDecodes : Prop :=
  (∀ raw < 1024, isFinite (decTemp raw) = true ∧ val cTLo ≤ val (decTemp raw) ∧
    val (decTemp raw) ≤ val 0x4063533333333333#64) ∧
  (∀ raw < 128, isFinite (decHum raw) = true ∧ 0 ≤ val (decHum raw) ∧ val (decHum raw) ≤ 100) ∧
  (∀ raw < 128, isFinite (decGas raw) = true ∧ 0 ≤ val (decGas raw) ∧
    val (decGas raw) ≤ val 0x4007D0186266CB2A#64) ∧
  (∀ raw < 2 ^ 24, isFinite (decGps raw) = true ∧ -180 ≤ val (decGps raw) ∧
    val (decGps raw) ≤ val 0x409766E2D0E56042#64)

/-- Quantization: a value set and read back is lower by less than one step of its field, apart from rounding
(`30_encoding.md` section A3, inferred there from the transforms; the humidity bound is the corrected one of
`90_conflicts.md` C3, and the allowance of 10^-12 for rounding is the model's, log entry 13: the spec says of the order
of 10^-13). -/
def Obligations.QuantizationLosesLessThanOneStep : Prop :=
  (∀ t : Real64, tempOk t = true → WithinStep (1 / 5) t (decTemp (encTemp t).toNat)) ∧
  (∀ h : Real64, humOk h = true → WithinStep (100 / 127) h (decHum (encHum h).toNat)) ∧
  (∀ g : Real64, gasOk g = true → WithinStep (1000 / 42666) g (decGas (encGas g).toNat)) ∧
  (∀ x : Real64, gpsOk x = true → WithinStep (1 / 10000) x (decGps (encGps x).toNat))

/-! ### The commands, one statement each: the word, where it completes, its whole effect -/

/-- CLR (`40_construct.md` R70). -/
def Obligations.ClearZeroesThePayload : Prop :=
  (∀ w, HasOp 0x0#4 w → decode w = .clr) ∧
  ∀ s : State, s.fault = false →
    ∃ t, exec .clr s = .next t ∧ (∀ i, payByte t.pay i = 0x00#8) ∧ t.fault = s.fault ∧ t.fcode = s.fcode ∧
      t.inputs = s.inputs ∧ t.rsp = some 0

/-- LOAD (`40_construct.md` R71). -/
def Obligations.LoadCopiesTheTenBytes : Prop :=
  (∀ w, HasOp 0x1#4 w → ∃ buf, decode w = .load buf ∧
    ∀ k : Fin 10, payByte buf k = w.extractLsb' (120 - 8 * k.val) 8) ∧
  ∀ (buf : PayVec) (s : State), s.fault = false →
    ∃ t, exec (.load buf) s = .next t ∧ (∀ k, payByte t.pay k = payByte buf k) ∧ t.fault = s.fault ∧
      t.fcode = s.fcode ∧ t.inputs = s.inputs ∧ t.rsp = some 0

/-- EQ (`41_equality.md` R73): 1 exactly where the ten bytes agree, sensitive to every single bit. -/
def Obligations.EqComparesTheTenBytes : Prop :=
  (∀ w, HasOp 0x2#4 w → ∃ buf, decode w = .eq buf ∧
    ∀ k : Fin 10, payByte buf k = w.extractLsb' (120 - 8 * k.val) 8) ∧
  (∀ (buf : PayVec) (s : State), s.fault = false →
    ((∀ i, payByte s.pay i = payByte buf i) →
      exec (.eq buf) s = .next { s with rsp := some ((1#64 ++ 0#64 : BitVec 128)) }) ∧
    ((∃ i, payByte s.pay i ≠ payByte buf i) → exec (.eq buf) s = .next { s with rsp := some 0 })) ∧
  (∀ (s : State) (k : Nat), s.fault = false → k < 80 →
    exec (.eq (s.pay ^^^ (1#80 <<< k))) s = .next { s with rsp := some 0 })

/-- SETVER (`42_setters.md` R76). -/
def Obligations.SetverWritesTheTopNibble : Prop :=
  (∀ w, HasOp 0x3#4 w → decode w = .setver ((w.extractLsb' 64 64).extractLsb' 0 32).toInt) ∧
  ∀ (n : Int) (s : State), s.fault = false →
    (0 ≤ n ∧ n ≤ 15 → ∃ t, exec (.setver n) s = .next t ∧
      payByte t.pay 0 = (payByte s.pay 0 &&& 0x0F#8) ||| BitVec.ofNat 8 (n.toNat <<< 4) ∧
      KeptBut [0] s t ∧ t.rsp = some 0) ∧
    (¬ (0 ≤ n ∧ n ≤ 15) → exec (.setver n) s = .next (Raised 1 s))

/-- SETTEMP (`42_setters.md` R77, transform `30_encoding.md` R50). -/
def Obligations.SettempWritesTheTenBits : Prop :=
  (∀ w, HasOp 0x4#4 w → decode w = .settemp (w.extractLsb' 64 64)) ∧
  ∀ (x : Real64) (s : State) (raw : Nat), s.fault = false →
    raw = (ftrunc (fmul (fadd x c50) c5) % 2 ^ 10).toNat →
    ((fle cTLo x && fle x cTHi) = true → ∃ t, exec (.settemp x) s = .next t ∧
      payByte t.pay 1 = BitVec.ofNat 8 (raw >>> 2) ∧
      payByte t.pay 2 = (payByte s.pay 2 &&& 0x3F#8) ||| BitVec.ofNat 8 ((raw &&& 3) <<< 6) ∧
      KeptBut [1, 2] s t ∧ t.rsp = some 0) ∧
    ((fle cTLo x && fle x cTHi) = false → exec (.settemp x) s = .next (Raised 2 s))

/-- SETHUM (`42_setters.md` R78, transform `30_encoding.md` R51). -/
def Obligations.SethumWritesTheSevenBits : Prop :=
  (∀ w, HasOp 0x5#4 w → decode w = .sethum (w.extractLsb' 64 64)) ∧
  ∀ (x : Real64) (s : State) (raw : Nat), s.fault = false →
    raw = (ftrunc (fmul (fdiv x c100) c127) % 2 ^ 7).toNat →
    ((fle cZero x && fle x cHHi) = true → ∃ t, exec (.sethum x) s = .next t ∧
      payByte t.pay 2 = (payByte s.pay 2 &&& 0xC0#8) ||| BitVec.ofNat 8 (raw >>> 1) ∧
      payByte t.pay 3 = (payByte s.pay 3 &&& 0x7F#8) ||| BitVec.ofNat 8 ((raw &&& 1) <<< 7) ∧
      KeptBut [2, 3] s t ∧ t.rsp = some 0) ∧
    ((fle cZero x && fle x cHHi) = false → exec (.sethum x) s = .next (Raised 3 s))

/-- SETGAS (`42_setters.md` R79, transform `30_encoding.md` R52). -/
def Obligations.SetgasWritesTheSevenBits : Prop :=
  (∀ w, HasOp 0x6#4 w → decode w = .setgas (w.extractLsb' 64 64)) ∧
  ∀ (x : Real64) (s : State) (raw : Nat), s.fault = false →
    raw = (ftrunc (fmul x cGas) % 2 ^ 7).toNat →
    ((fle cZero x && fle x cGHi) = true → ∃ t, exec (.setgas x) s = .next t ∧
      payByte t.pay 3 = (payByte s.pay 3 &&& 0x80#8) ||| BitVec.ofNat 8 raw ∧
      KeptBut [3] s t ∧ t.rsp = some 0) ∧
    ((fle cZero x && fle x cGHi) = false → exec (.setgas x) s = .next (Raised 4 s))

/-- SETGPS (`42_setters.md` R80, priority `60_exceptions.md` R98, transform `30_encoding.md` R53, R54). -/
def Obligations.SetgpsWritesBothOrNeither : Prop :=
  (∀ w, HasOp 0x7#4 w → decode w = .setgps (w.extractLsb' 64 64) (w.extractLsb' 0 64)) ∧
  ∀ (x y : Real64) (s : State) (rlat rlon : Nat), s.fault = false →
    rlat = (ftrunc (fmul (fadd x c180) c10000) % 2 ^ 24).toNat →
    rlon = (ftrunc (fmul (fadd y c180) c10000) % 2 ^ 24).toNat →
    ((fle cPLo x && fle x cPHi) = true → (fle cPLo y && fle y cPHi) = true → ∃ t, exec (.setgps x y) s = .next t ∧
      payByte t.pay 4 = BitVec.ofNat 8 (rlat >>> 16) ∧ payByte t.pay 5 = BitVec.ofNat 8 ((rlat >>> 8) &&& 0xFF) ∧
      payByte t.pay 6 = BitVec.ofNat 8 (rlat &&& 0xFF) ∧ payByte t.pay 7 = BitVec.ofNat 8 (rlon >>> 16) ∧
      payByte t.pay 8 = BitVec.ofNat 8 ((rlon >>> 8) &&& 0xFF) ∧ payByte t.pay 9 = BitVec.ofNat 8 (rlon &&& 0xFF) ∧
      KeptBut [4, 5, 6, 7, 8, 9] s t ∧ t.rsp = some 0) ∧
    ((fle cPLo x && fle x cPHi) = true → (fle cPLo y && fle y cPHi) = false →
      exec (.setgps x y) s = .next (Raised 6 s)) ∧
    ((fle cPLo x && fle x cPHi) = false → exec (.setgps x y) s = .next (Raised 5 s))

/-- SETBAT (`42_setters.md` R81). -/
def Obligations.SetbatWritesOneBit : Prop :=
  (∀ w, HasOp 0x8#4 w → decode w = .setbat ((w.extractLsb' 64 64).getLsbD 0)) ∧
  ∀ (b : Bool) (s : State), s.fault = false → ∃ t, exec (.setbat b) s = .next t ∧
    payByte t.pay 0 = (payByte s.pay 0 &&& 0xF7#8) ||| (if b then 0x08#8 else 0x00#8) ∧
    KeptBut [0] s t ∧ t.rsp = some 0

/-- GETVER (`43_getters.md` R83). -/
def Obligations.GetverReadsTheTopNibble : Prop :=
  (∀ w, HasOp 0x9#4 w → decode w = .getver) ∧
  ∀ s : State, s.fault = false → exec .getver s =
    .next { s with rsp := some (BitVec.ofNat 64 ((payByte s.pay 0).toNat >>> 4) ++ 0#64 : BitVec 128) }

/-- GETBAT (`43_getters.md` R84). -/
def Obligations.GetbatReadsOneBit : Prop :=
  (∀ w, HasOp 0xA#4 w → decode w = .getbat) ∧
  ∀ s : State, s.fault = false → exec .getbat s =
    .next { s with rsp := some (BitVec.ofNat 64 (((payByte s.pay 0).toNat >>> 3) &&& 1) ++ 0#64 : BitVec 128) }

/-- GETTEMP (`43_getters.md` R85). -/
def Obligations.GettempDecodesTheTenBits : Prop :=
  (∀ w, HasOp 0xB#4 w → decode w = .gettemp) ∧
  ∀ (s : State) (raw : Nat), s.fault = false →
    raw = ((payByte s.pay 1).toNat <<< 2) ||| ((payByte s.pay 2).toNat >>> 6) →
    exec .gettemp s = .next { s with rsp := some (fsub (fdiv (i2f raw) c5) c50 ++ 0#64 : BitVec 128) }

/-- GETHUM (`43_getters.md` R86). -/
def Obligations.GethumDecodesTheSevenBits : Prop :=
  (∀ w, HasOp 0xC#4 w → decode w = .gethum) ∧
  ∀ (s : State) (raw : Nat), s.fault = false →
    raw = (((payByte s.pay 2).toNat &&& 0x3F) <<< 1) ||| ((payByte s.pay 3).toNat >>> 7) →
    exec .gethum s = .next { s with rsp := some (fmul (fdiv (i2f raw) c127) c100 ++ 0#64 : BitVec 128) }

/-- GETGAS (`43_getters.md` R87). -/
def Obligations.GetgasDecodesTheSevenBits : Prop :=
  (∀ w, HasOp 0xD#4 w → decode w = .getgas) ∧
  ∀ (s : State) (raw : Nat), s.fault = false → raw = (payByte s.pay 3).toNat &&& 0x7F →
    exec .getgas s = .next { s with rsp := some (fdiv (i2f raw) cGas ++ 0#64 : BitVec 128) }

/-- GETGPS (`43_getters.md` R88). -/
def Obligations.GetgpsDecodesBothAxes : Prop :=
  (∀ w, HasOp 0xE#4 w → decode w = .getgps) ∧
  ∀ (s : State) (rlat rlon : Nat), s.fault = false →
    rlat = ((payByte s.pay 4).toNat <<< 16) ||| ((payByte s.pay 5).toNat <<< 8) ||| (payByte s.pay 6).toNat →
    rlon = ((payByte s.pay 7).toNat <<< 16) ||| ((payByte s.pay 8).toNat <<< 8) ||| (payByte s.pay 9).toNat →
    exec .getgps s = .next { s with
      rsp := some (fsub (fdiv (i2f rlat) c10000) c180 ++ fsub (fdiv (i2f rlon) c10000) c180 : BitVec 128) }

/-- VIEW (`44_view.md` R89). -/
def Obligations.ViewReturnsBytesAndCount : Prop :=
  (∀ w, HasOp 0xF#4 w → decode w = .view) ∧
  ∀ s : State, s.fault = false → ∃ r : RspWord, exec .view s = .next { s with rsp := some r } ∧
    (∀ k : Fin 10, r.extractLsb' (120 - 8 * k.val) 8 = payByte s.pay k) ∧
    r.extractLsb' 4 44 = 0#44 ∧ r.extractLsb' 0 4 = 10#4

/-! ### Sequences -/

/-- The reading commands change nothing but the response, and after any of them any of them answers as it would have
before, itself included (`20_memory.md` R40). -/
def Obligations.ReadsHaveNoSideEffect : Prop :=
  ∀ (i j : Instr) (s t u : State), i.isRead = true → j.isRead = true →
    exec i s = .next t → exec j s = .next u → t = { s with rsp := t.rsp } ∧ t.rsp.isSome = true ∧ exec j t = .next u

/-- A getter after a setter of its field gives the decode of the raw value stored; the version comes back exactly
(`20_memory.md` R41, `30_encoding.md` R47). -/
def Obligations.GetterAfterSetterReadsWhatWasStored : Prop :=
  ∀ s : State, s.fault = false →
    (∀ n : Int, 0 ≤ n → n ≤ 15 → ∃ t u, exec (.setver n) s = .next t ∧ exec .getver t = .next u ∧
      u.rsp = some (rspWord (BitVec.ofInt 64 n) 0)) ∧
    (∀ b : Bool, ∃ t u, exec (.setbat b) s = .next t ∧ exec .getbat t = .next u ∧
      u.rsp = some (rspWord (if b then 1 else 0) 0)) ∧
    (∀ x, tempOk x = true → ∃ t u, exec (.settemp x) s = .next t ∧ exec .gettemp t = .next u ∧
      u.rsp = some (rspWord (decTemp (encTemp x % 2 ^ 10).toNat) 0)) ∧
    (∀ x, humOk x = true → ∃ t u, exec (.sethum x) s = .next t ∧ exec .gethum t = .next u ∧
      u.rsp = some (rspWord (decHum (encHum x % 2 ^ 7).toNat) 0)) ∧
    (∀ x, gasOk x = true → ∃ t u, exec (.setgas x) s = .next t ∧ exec .getgas t = .next u ∧
      u.rsp = some (rspWord (decGas (encGas x % 2 ^ 7).toNat) 0)) ∧
    (∀ x y, gpsOk x = true → gpsOk y = true → ∃ t u, exec (.setgps x y) s = .next t ∧ exec .getgps t = .next u ∧
      u.rsp = some (rspWord (decGps (encGps x % 2 ^ 24).toNat) (decGps (encGps y % 2 ^ 24).toNat)))

/-- Commands that write different fields commute on PAY, where both succeed (`20_memory.md` R41). -/
def Obligations.CommandsOnDifferentFieldsCommute : Prop :=
  ∀ (i j : Instr) (s a b c d : State), (∀ f, f ∈ i.writes → f ∉ j.writes) →
    exec i s = .next a → exec j a = .next b → exec j s = .next c → exec i c = .next d →
    b.fault = false → d.fault = false → b.pay = d.pay

/-- Of two commands with the same opcode the later one's writing stays, where both succeed (`20_memory.md` R41). -/
def Obligations.TheLaterWriteStays : Prop :=
  ∀ (i j : Instr) (s a b c : State), i.opcode = j.opcode →
    exec i s = .next a → exec j a = .next b → b.fault = false → exec j s = .next c → b.pay = c.pay

/-- The ten bytes loaded are the ten bytes viewed (`40_construct.md` R71, `95_test_vectors.md` P9). -/
def Obligations.ViewAfterLoadReturnsTheBytes : Prop :=
  ∀ (b : Fin 10 → Byte) (s : State), s.fault = false →
    ∃ t u r, exec (.load (payOfBytes b)) s = .next t ∧ exec .view t = .next u ∧ u.rsp = some r ∧
      ∀ k : Fin 10, r.extractLsb' (120 - 8 * k.val) 8 = b k

/-- COPY and MOVE duplicate: the destination then equals the source bit for bit, EQP answers 1, and the source keeps
its bytes; NEW is CLR (`40_construct.md` R72, `30_encoding.md` R67). -/
def Obligations.CopyAndMoveDuplicate : Prop :=
  ∀ x y : State, x.fault = false → y.fault = false →
    (∃ x' y', pseudoCopy y x = .next (y', x') ∧ pseudoMove y x = .next (y', x') ∧
      y'.pay = x.pay ∧ x'.pay = x.pay ∧ x'.fault = false ∧ y'.fault = false ∧
      ∃ y'' x'', pseudoEqp y' x' = .next (y'', x'') ∧ y''.rsp = some (rspWord 1 0) ∧
        y''.pay = y'.pay ∧ x''.pay = x'.pay) ∧
    pseudoNew x = exec .clr x

/-- The three vectors of the source on the empty payload (`95_test_vectors.md` S1, S2, S3; examples of R76, R79,
R80). -/
def Obligations.SourceVectorsAreReproduced : Prop :=
  exec (.setver 10) State.reset = .next { State.reset with
    pay := 0xA0000000000000000000#80, rsp := some 0 } ∧
  exec (.setgas 0x4004CCCCCCCCCCCD#64) State.reset = .next { State.reset with
    pay := 0x0000006E000000000000#80, rsp := some 0 } ∧
  exec (.setgps 0x40634B3333333333#64 0xC058975DCC63F141#64) State.reset = .next { State.reset with
    pay := 0x0000000033048C0C74DD#80, rsp := some 0 }

/-- Corner cases the setters' rules print: the ends of the domains and their neighbours, negative zero, truncation
just below a step (`42_setters.md` R77 to R80). -/
def Obligations.CornerCasesOfTheSetters : Prop :=
  (tempOk 0x4063566666666667#64 = false ∧ tempOk 0x8000000000000000#64 = true ∧ encTemp 0x8000000000000000#64 = 250 ∧
    encTemp 0x4035800000000000#64 = 357 ∧ encTemp 0xC048E7AE147AE148#64 = 0 ∧ encTemp 0xC048CCCCCCCCCCCD#64 = 1) ∧
  (humOk 0x8000000000000000#64 = true ∧ encHum 0x8000000000000000#64 = 0 ∧ humOk 0x8000000000000001#64 = false ∧
    encHum 0x4058FF5C28F5C28F#64 = 126 ∧ encHum 0x4049000000000000#64 = 63 ∧ encHum 0x3FE91EB851EB851F#64 = 0) ∧
  (gasOk 0x8000000000000000#64 = true ∧ encGas 0x8000000000000000#64 = 0 ∧ encGas 0x3FF8000000000000#64 = 63 ∧
    gasOk 0x4008147AE147AE14#64 = false) ∧
  (encGps 0x0000000000000000#64 = 1800000 ∧ encGps 0x40634B3333333333#64 = 3343500 ∧
    encGps 0xC0667FFBE76C8B44#64 = 4 ∧ gpsOk 0x406680083126E979#64 = false)
end

