-- ==== Sys2Proof/Laws/Binary64.lean ====
section
/-! SUPPORT. The format and the rounding of Machine/Binary64: a pattern's value in units, what a packed pattern spells,
and that `roundMag` yields the rounded quotient with a half-spacing error. -/

namespace Sys2Proof.Machine

/-! ### The format -/

theorem unitScale_pos : 0 < unitScale := by
  obtain ⟨n, hn⟩ : ∃ n, unitScale = 2 ^ n := ⟨1074, by unfold unitScale; exact Eq.refl _⟩
  exact hn ▸ Nat.two_pow_pos n

theorem unitScale_cast : (unitScale : ℚ) = 2 ^ 1074 := by
  unfold unitScale
  exact Nat.cast_pow 2 1074

theorem unitScale_ne_zero : (unitScale : ℚ) ≠ 0 := by exact_mod_cast unitScale_pos.ne'

theorem fExp_lt (r : Real64) : fExp r < 2048 := (r.extractLsb' 52 11).isLt

theorem fFrac_lt (r : Real64) : fFrac r < 2 ^ 52 := (r.extractLsb' 0 52).isLt

theorem mag_subnormal {r : Real64} (h : fExp r = 0) : mag r = fFrac r := by rw [mag, if_pos h]

theorem mag_normal {r : Real64} (h : fExp r ≠ 0) : mag r = (2 ^ 52 + fFrac r) * 2 ^ (fExp r - 1) := by
  rw [mag, if_neg h]

theorem two_zpow_neg_1074 : (2 : ℚ) ^ (-1074 : ℤ) = 1 / (unitScale : ℚ) := by
  rw [unitScale_cast, zpow_neg, one_div]; rfl

/-- |val| of a normal pattern, the exponent k + 1 counted from the lowest normal binade. -/
theorem normal_value (f : ℚ) (k : ℕ) :
    (1 + f * 2 ^ (-52 : ℤ)) * 2 ^ (((k + 1 : ℕ) : ℤ) - 1023) = ((2 ^ 52 + f) * 2 ^ k) / unitScale := by
  have h2 : (2 : ℚ) ≠ 0 := by norm_num
  have e : ((k + 1 : ℕ) : ℤ) - 1023 = (52 : ℤ) + k + (-1074) := by push_cast; ring
  rw [e, zpow_add₀ h2, zpow_add₀ h2, two_zpow_neg_1074, zpow_natCast]
  have e52 : (2 : ℚ) ^ (52 : ℤ) = 2 ^ 52 := by norm_cast
  have en52 : (2 : ℚ) ^ (-52 : ℤ) = (2 ^ 52)⁻¹ := by rw [zpow_neg]; norm_cast
  rw [e52, en52]
  have h : (1 + f * (2 ^ 52)⁻¹) * (2 ^ 52 : ℚ) = 2 ^ 52 + f := by
    rw [add_mul, one_mul, mul_assoc, inv_mul_cancel₀ (by positivity), mul_one]
  rw [← h]
  ring

/-- The value of R6 is the units divided by 2^1074. -/
theorem val_eq_units (r : Real64) : val r = (units r : ℚ) / unitScale := by
  have hm : (if fExp r = 0 then (fFrac r : ℚ) * 2 ^ (-1074 : ℤ)
      else (1 + (fFrac r : ℚ) * 2 ^ (-52 : ℤ)) * 2 ^ ((fExp r : ℤ) - 1023)) = (mag r : ℚ) / unitScale := by
    by_cases h : fExp r = 0
    · rw [if_pos h, mag_subnormal h, two_zpow_neg_1074, mul_one_div]
    · obtain ⟨k, hk⟩ := Nat.exists_eq_succ_of_ne_zero h
      rw [if_neg h, mag_normal h, hk, normal_value]
      push_cast
      rfl
  unfold val units
  rw [hm]
  cases fSign r <;> simp [neg_div]

/-! ### Packed patterns -/

/-- The magnitude that 63 exponent and fraction bits spell. -/
def magBits (b : Nat) : Nat :=
  if b / 2 ^ 52 = 0 then b % 2 ^ 52 else (2 ^ 52 + b % 2 ^ 52) * 2 ^ (b / 2 ^ 52 - 1)

theorem toNat_pack (neg : Bool) {b : Nat} (h : b < 2 ^ 63) : (pack neg b).toNat = neg.toNat * 2 ^ 63 + b := by
  have h1 : (BitVec.ofNat 63 b).toNat = b := by rw [BitVec.toNat_ofNat, Nat.mod_eq_of_lt h]
  unfold pack
  rw [BitVec.toNat_append, h1, BitVec.toNat_ofBool, Nat.shiftLeft_eq]
  rw [Nat.mul_comm, ← Nat.two_pow_add_eq_or_of_lt h]

theorem fSign_pack (neg : Bool) (b : Nat) : fSign (pack neg b) = neg := by
  unfold fSign pack; rw [BitVec.getLsbD_append]; simp

theorem fExp_eq (r : Real64) : fExp r = r.toNat / 2 ^ 52 % 2 ^ 11 := by
  simp [fExp, BitVec.extractLsb'_toNat, Nat.shiftRight_eq_div_pow]

theorem fFrac_eq (r : Real64) : fFrac r = r.toNat % 2 ^ 52 := by
  simp [fFrac, BitVec.extractLsb'_toNat]

theorem fExp_pack (neg : Bool) {b : Nat} (h : b < 2 ^ 63) : fExp (pack neg b) = b / 2 ^ 52 := by
  rw [fExp_eq, toNat_pack neg h]
  cases neg <;> simp only [Bool.toNat_true, Bool.toNat_false] <;> omega

theorem fFrac_pack (neg : Bool) {b : Nat} (h : b < 2 ^ 63) : fFrac (pack neg b) = b % 2 ^ 52 := by
  rw [fFrac_eq, toNat_pack neg h]
  cases neg <;> simp only [Bool.toNat_true, Bool.toNat_false] <;> omega

theorem mag_pack (neg : Bool) {b : Nat} (h : b < 2 ^ 63) : mag (pack neg b) = magBits b := by
  rw [mag, magBits, fExp_pack neg h, fFrac_pack neg h]

theorem isFinite_pack (neg : Bool) {b : Nat} (h : b < infBits) : isFinite (pack neg b) = true := by
  have hb : b < 2 ^ 63 := by unfold infBits at h; omega
  have : b / 2 ^ 52 ≠ 2047 := by unfold infBits at h; omega
  rw [isFinite, fExp_pack neg hb]
  simpa using this

/-- Every pattern is packed from its own sign and bits. -/
theorem mag_eq_magBits (r : Real64) : mag r = magBits (r.toNat % 2 ^ 63) := by
  have hr : r.toNat < 2 ^ 64 := r.isLt
  have e1 : r.toNat / 2 ^ 52 % 2 ^ 11 = r.toNat % 2 ^ 63 / 2 ^ 52 := by omega
  have e2 : r.toNat % 2 ^ 52 = r.toNat % 2 ^ 63 % 2 ^ 52 := by omega
  rw [mag, magBits, fExp_eq, fFrac_eq, e1, ← e2]

/-- The magnitudes grow with the bits. -/
theorem magBits_lt_succ (b : Nat) : magBits b < magBits (b + 1) := by
  by_cases hf : b % 2 ^ 52 = 2 ^ 52 - 1
  · have hd : (b + 1) / 2 ^ 52 = b / 2 ^ 52 + 1 := by omega
    have hm : (b + 1) % 2 ^ 52 = 0 := by omega
    have hne : ¬ b / 2 ^ 52 + 1 = 0 := by omega
    unfold magBits
    rw [hd, hm, hf, if_neg hne]
    by_cases h0 : b / 2 ^ 52 = 0
    · rw [if_pos h0, h0]; decide
    · obtain ⟨k, hk⟩ := Nat.exists_eq_succ_of_ne_zero h0
      rw [if_neg h0, hk]
      have : 0 < 2 ^ k := Nat.two_pow_pos k
      have e : (k + 1 + 1 - 1) = k + 1 := rfl
      simp only [Nat.succ_eq_add_one, Nat.add_sub_cancel, Nat.pow_succ]
      omega
  · have hd : (b + 1) / 2 ^ 52 = b / 2 ^ 52 := by omega
    have hm : (b + 1) % 2 ^ 52 = b % 2 ^ 52 + 1 := by omega
    unfold magBits
    rw [hd, hm]
    by_cases h0 : b / 2 ^ 52 = 0
    · rw [if_pos h0, if_pos h0]; omega
    · rw [if_neg h0, if_neg h0]
      exact Nat.mul_lt_mul_of_pos_right (by omega) (Nat.two_pow_pos _)

theorem magBits_strictMono : StrictMono magBits := strictMono_nat_of_lt_succ magBits_lt_succ

/-! ### Rounding -/

theorem roundHalfEven_bounds (num den : Nat) :
    num / den ≤ roundHalfEven num den ∧ roundHalfEven num den ≤ num / den + 1 := by
  unfold roundHalfEven
  split
  · omega
  · split <;> omega

/-- Half-spacing error of the rounded quotient, from both sides. -/
theorem roundHalfEven_error (num : Nat) {den : Nat} (hd : 0 < den) :
    2 * (roundHalfEven num den * den) ≤ 2 * num + den ∧ 2 * num ≤ 2 * (roundHalfEven num den * den) + den := by
  have hdm : den * (num / den) + num % den = num := Nat.div_add_mod num den
  have hlt : num % den < den := Nat.mod_lt num hd
  have hc : num / den * den = den * (num / den) := Nat.mul_comm _ _
  unfold roundHalfEven
  split
  · omega
  · split
    · rw [Nat.add_mul]; omega
    · have hb : num / den % 2 < 2 := Nat.mod_lt _ (by decide)
      rcases Nat.mod_two_eq_zero_or_one (num / den) with h | h <;> rw [h, Nat.add_mul] <;> omega

/-- A tie goes to the even neighbour. -/
theorem roundHalfEven_tie (num den : Nat) (h : 2 * (num % den) = den) : roundHalfEven num den % 2 = 0 := by
  unfold roundHalfEven
  rw [if_neg (by omega), if_neg (by omega)]
  omega

theorem roundHalfEven_exact (n : Nat) {den : Nat} (hd : 0 < den) : roundHalfEven (n * den) den = n := by
  unfold roundHalfEven
  rw [Nat.mul_mod_left, Nat.mul_div_cancel _ hd, if_pos (by omega)]

/-- A larger quotient rounds to no smaller integer. -/
theorem roundHalfEven_mono {n d n' d' : Nat} (hd : 0 < d) (hd' : 0 < d') (h : n * d' ≤ n' * d) :
    roundHalfEven n d ≤ roundHalfEven n' d' := by
  by_contra hc
  have hc' : roundHalfEven n' d' + 1 ≤ roundHalfEven n d := by omega
  have e1 := (roundHalfEven_error n hd).1
  have e2 := (roundHalfEven_error n' hd').2
  set a := roundHalfEven n d with ha
  set b := roundHalfEven n' d' with hb
  -- the two half-spacing bounds meet only in a tie, where both are even
  have k1 : (2 * b + 2) * d ≤ 2 * n + d := by nlinarith
  have k2 : 2 * n' ≤ (2 * b + 1) * d' := by nlinarith
  have k3 : (2 * b + 1) * d ≤ 2 * n := by nlinarith
  have k4 : (2 * b + 1) * d * d' ≤ 2 * n * d' := Nat.mul_le_mul_right d' k3
  have k5 : 2 * n' * d ≤ (2 * b + 1) * d' * d := Nat.mul_le_mul_right d k2
  have t1 : 2 * n * d' = (2 * b + 1) * d * d' := by nlinarith
  have t2 : 2 * n' * d = (2 * b + 1) * d' * d := by nlinarith
  have s1 : 2 * n = (2 * b + 1) * d := Nat.eq_of_mul_eq_mul_right hd' t1
  have s2 : 2 * n' = (2 * b + 1) * d' := Nat.eq_of_mul_eq_mul_right hd t2
  have tie : ∀ {m e : Nat}, 0 < e → 2 * m = (2 * b + 1) * e → m / e = b ∧ 2 * (m % e) = e := by
    intro m e he hm
    have hdiv : m / e = b := by
      apply Nat.div_eq_of_lt_le
      · nlinarith
      · nlinarith
    refine ⟨hdiv, ?_⟩
    have := Nat.div_add_mod m e
    rw [hdiv] at this
    nlinarith
  obtain ⟨q1, r1⟩ := tie hd s1
  obtain ⟨q2, r2⟩ := tie hd' s2
  have ev1 := roundHalfEven_tie n d r1
  have ev2 := roundHalfEven_tie n' d' r2
  have u1 := (roundHalfEven_bounds n d).2
  rw [← ha] at ev1 u1
  rw [← hb] at ev2
  omega

/-- How far `roundMag` shifts: the binades above the lowest normal one. -/
def shiftOf (num den : Nat) : Nat := (num / den).log2 - 52

theorem quotient_lt (num den : Nat) : num / den < 2 ^ (53 + shiftOf num den) := by
  unfold shiftOf
  rcases Nat.eq_zero_or_pos (num / den) with h | h
  · rw [h]; exact Nat.two_pow_pos _
  · have := (Nat.log2_lt (by omega : num / den ≠ 0)).mp (Nat.lt_succ_self (num / den).log2)
    exact lt_of_lt_of_le this (Nat.pow_le_pow_right (by decide) (by omega))

theorem le_quotient {num den : Nat} (h : 0 < shiftOf num den) : 2 ^ (52 + shiftOf num den) ≤ num / den := by
  unfold shiftOf at *
  have hne : num / den ≠ 0 := by rintro e; rw [e] at h; revert h; decide
  have := (Nat.le_log2 hne).mp (Nat.le_refl (num / den).log2)
  have e : 52 + ((num / den).log2 - 52) = (num / den).log2 := by omega
  rwa [e]

/-- The rounded significand fits 53 bits or is the next power of two, and uses the 53rd bit above the lowest
binade. -/
theorem significand_bounds {num den : Nat} :
    roundHalfEven num (den * 2 ^ shiftOf num den) ≤ 2 ^ 53 ∧
    (0 < shiftOf num den → 2 ^ 52 ≤ roundHalfEven num (den * 2 ^ shiftOf num den)) := by
  have hb := roundHalfEven_bounds num (den * 2 ^ shiftOf num den)
  rw [← Nat.div_div_eq_div_mul] at hb
  constructor
  · have : num / den / 2 ^ shiftOf num den < 2 ^ 53 := by
      rw [Nat.div_lt_iff_lt_mul (Nat.two_pow_pos _), ← Nat.pow_add]
      exact quotient_lt num den
    omega
  · intro h
    have : 2 ^ 52 ≤ num / den / 2 ^ shiftOf num den := by
      rw [Nat.le_div_iff_mul_le (Nat.two_pow_pos _), ← Nat.pow_add]
      exact le_quotient h
    omega

/-- The magnitude of `sh * 2^52 + n` for a significand n as in `significand_bounds`. -/
theorem magBits_binade {sh n : Nat} (hn : n ≤ 2 ^ 53) (hl : 0 < sh → 2 ^ 52 ≤ n) :
    magBits (sh * 2 ^ 52 + n) = n * 2 ^ sh := by
  unfold magBits
  rcases Nat.lt_or_ge n (2 ^ 52) with h | h
  · have h0 : sh = 0 := by by_contra hc; have := hl (by omega); omega
    subst h0
    rw [if_pos (by omega)]
    omega
  · rcases Nat.lt_or_ge n (2 ^ 53) with h2 | h2
    · have hd : (sh * 2 ^ 52 + n) / 2 ^ 52 = sh + 1 := by omega
      have hm : (sh * 2 ^ 52 + n) % 2 ^ 52 = n - 2 ^ 52 := by omega
      rw [hd, hm, if_neg (by omega), Nat.add_sub_cancel, Nat.add_sub_cancel' h]
    · have hn' : n = 2 ^ 53 := by omega
      have hd : (sh * 2 ^ 52 + n) / 2 ^ 52 = sh + 2 := by omega
      have hm : (sh * 2 ^ 52 + n) % 2 ^ 52 = 0 := by omega
      rw [hd, hm, if_neg (by omega), hn']
      have e : sh + 2 - 1 = sh + 1 := rfl
      rw [e, Nat.pow_succ]
      ring

theorem roundMag_le_infBits (num den : Nat) : roundMag num den ≤ infBits := Nat.min_le_right _ _

theorem roundMag_lt (num den : Nat) : roundMag num den < 2 ^ 63 :=
  lt_of_le_of_lt (roundMag_le_infBits num den) (by decide)

/-- Where it does not overflow, `roundMag` spells the rounded quotient times its spacing. -/
theorem magBits_roundMag {num den : Nat} (h : roundMag num den < infBits) :
    magBits (roundMag num den) =
      roundHalfEven num (den * 2 ^ shiftOf num den) * 2 ^ shiftOf num den := by
  have e : roundMag num den = min (shiftOf num den * 2 ^ 52 +
      roundHalfEven num (den * 2 ^ shiftOf num den)) infBits := rfl
  have e' : roundMag num den = shiftOf num den * 2 ^ 52 + roundHalfEven num (den * 2 ^ shiftOf num den) := by
    omega
  rw [e', magBits_binade significand_bounds.1 significand_bounds.2]

/-- The error of a rounding, in units scaled by the divisor: half a spacing. -/
theorem roundMag_error {num den : Nat} (hd : 0 < den) (h : roundMag num den < infBits) :
    2 * (magBits (roundMag num den) * den) ≤ 2 * num + den * 2 ^ shiftOf num den ∧
    2 * num ≤ 2 * (magBits (roundMag num den) * den) + den * 2 ^ shiftOf num den := by
  have := roundHalfEven_error num (Nat.mul_pos hd (Nat.two_pow_pos (shiftOf num den)))
  rw [magBits_roundMag h]
  have e : roundHalfEven num (den * 2 ^ shiftOf num den) * 2 ^ shiftOf num den * den =
      roundHalfEven num (den * 2 ^ shiftOf num den) * (den * 2 ^ shiftOf num den) := by ring
  rw [e]
  exact this

/-- Rounding keeps the order of quotients. -/
theorem roundMag_mono {n d n' d' : Nat} (hd : 0 < d) (hd' : 0 < d') (h : n * d' ≤ n' * d) :
    roundMag n d ≤ roundMag n' d' := by
  have hq : n / d ≤ n' / d' := by
    rw [Nat.le_div_iff_mul_le hd']
    have h1 : n / d * d ≤ n := Nat.div_mul_le_self n d
    have h2 : n / d * d * d' ≤ n' * d := le_trans (Nat.mul_le_mul_right d' h1) h
    exact Nat.le_of_mul_le_mul_right (by nlinarith : n / d * d' * d ≤ n' * d) hd
  have hs : shiftOf n d ≤ shiftOf n' d' := by
    unfold shiftOf
    rcases Nat.eq_zero_or_pos (n / d) with h0 | h0
    · rw [h0]
      have : Nat.log2 0 = 0 := by decide
      omega
    · have hne' : n' / d' ≠ 0 := by omega
      have hl := (Nat.le_log2 (by omega : n / d ≠ 0)).mp (Nat.le_refl (n / d).log2)
      have := (Nat.le_log2 hne').mpr (le_trans hl hq)
      omega
  have key : shiftOf n d * 2 ^ 52 + roundHalfEven n (d * 2 ^ shiftOf n d) ≤
      shiftOf n' d' * 2 ^ 52 + roundHalfEven n' (d' * 2 ^ shiftOf n' d') := by
    rcases Nat.lt_or_ge (shiftOf n d) (shiftOf n' d') with hlt | hge
    · have b1 := (significand_bounds (num := n) (den := d)).1
      have b2 := (significand_bounds (num := n') (den := d')).2 (by omega)
      omega
    · have he : shiftOf n d = shiftOf n' d' := by omega
      rw [he]
      have := roundHalfEven_mono (n := n) (n' := n') (d := d * 2 ^ shiftOf n' d') (d' := d' * 2 ^ shiftOf n' d')
        (Nat.mul_pos hd (Nat.two_pow_pos _)) (Nat.mul_pos hd' (Nat.two_pow_pos _))
        (by
          have := Nat.mul_le_mul_right (2 ^ shiftOf n' d') h
          nlinarith)
      omega
  have e : ∀ a b, roundMag a b = min (shiftOf a b * 2 ^ 52 + roundHalfEven a (b * 2 ^ shiftOf a b)) infBits :=
    fun _ _ => rfl
  rw [e, e]
  exact min_le_min_right infBits key

/-! ### The operations on finite operands -/

theorem fadd_finite {a b : Real64} (ha : isFinite a = true) (hb : isFinite b = true) :
    fadd a b = roundSum (units a) (units b) (fSign a && fSign b) := by simp [fadd, ha, hb]

theorem fsub_finite {a b : Real64} (ha : isFinite a = true) (hb : isFinite b = true) :
    fsub a b = roundSum (units a) (-(units b)) (fSign a && !fSign b) := by simp [fsub, ha, hb]

theorem fmul_finite {a b : Real64} (ha : isFinite a = true) (hb : isFinite b = true) :
    fmul a b = pack (xor (fSign a) (fSign b)) (roundMag (mag a * mag b) unitScale) := by simp [fmul, ha, hb]

theorem fdiv_finite {a b : Real64} (ha : isFinite a = true) (hb : isFinite b = true) (h0 : mag b ≠ 0) :
    fdiv a b = pack (xor (fSign a) (fSign b)) (roundMag (mag a * unitScale) (mag b)) := by
  have hc : (isFinite a && isFinite b && mag b != 0) = true := by rw [ha, hb, bne_iff_ne.mpr h0]; decide
  rw [fdiv, if_pos hc]

theorem ftrunc_finite {a : Real64} (ha : isFinite a = true) : ftrunc a = (units a).tdiv unitScale := by
  simp [ftrunc, ha]

/-- A comparison that came out true had no NaN on either side. -/
theorem fle_true {a b : Real64} (h : fle a b = true) : isNaN a = false ∧ isNaN b = false ∧ units a ≤ units b := by
  simpa [fle, and_assoc] using h

end Sys2Proof.Machine
end

