-- ==== Sys2Proof/Laws/Decode.lean ====
section
/-! SUPPORT. What the fields of a command word are, of a word put together from its parts, and the buffer operand as one
slice of the word. -/

namespace Sys2Proof

@[simp] theorem cmdOp_cmdWord (op : BitVec 4) (a b : BitVec 64) : cmdOp (cmdWord op a b) = op := by
  apply BitVec.eq_of_getLsbD_eq
  intro k hk
  have h1 : ¬ 128 + k < 64 := by omega
  have h2 : ¬ 128 + k - 64 < 64 := by omega
  have h3 : 128 + k - 64 - 64 = k := by omega
  simp only [cmdOp, cmdWord, BitVec.getLsbD_extractLsb', BitVec.getLsbD_append, if_neg h1, if_neg h2, h3]
  simp [hk]

@[simp] theorem cmdA_cmdWord (op : BitVec 4) (a b : BitVec 64) : cmdA (cmdWord op a b) = a := by
  apply BitVec.eq_of_getLsbD_eq
  intro k hk
  have h1 : ¬ 64 + k < 64 := by omega
  simp only [cmdA, cmdWord, BitVec.getLsbD_extractLsb', BitVec.getLsbD_append, if_neg h1]
  simp [hk]

@[simp] theorem cmdB_cmdWord (op : BitVec 4) (a b : BitVec 64) : cmdB (cmdWord op a b) = b := by
  apply BitVec.eq_of_getLsbD_eq
  intro k hk
  simp only [cmdB, cmdWord, BitVec.getLsbD_extractLsb', BitVec.getLsbD_append]
  simp [hk]

@[simp] theorem cmdOp_bufWord (op : BitVec 4) (buf : PayVec) : cmdOp (bufWord op buf) = op := by
  apply BitVec.eq_of_getLsbD_eq
  intro k hk
  have h1 : ¬ 128 + k < 48 := by omega
  have h2 : ¬ 128 + k - 48 < 80 := by omega
  have h3 : 128 + k - 48 - 80 = k := by omega
  simp only [cmdOp, bufWord, BitVec.getLsbD_extractLsb', BitVec.getLsbD_append, if_neg h1, if_neg h2, h3]
  simp [hk]

/-- `BUF = CMD[127:48]` (`30_encoding.md` R58). -/
theorem bufOperand_eq (w : CmdWord) : bufOperand w = w.extractLsb' 48 80 := by
  apply BitVec.eq_of_getLsbD_eq
  intro k hk
  simp only [bufOperand, cmdA, cmdB, BitVec.getLsbD_extractLsb', BitVec.getLsbD_append]
  by_cases h : k < 16
  · have h1 : 48 + k < 64 := by omega
    simp [h, hk, h1]
  · have h1 : k - 16 < 64 := by omega
    have h2 : 64 + (k - 16) = 48 + k := by omega
    simp [h, hk, h1, h2]

@[simp] theorem bufOperand_bufWord (op : BitVec 4) (buf : PayVec) : bufOperand (bufWord op buf) = buf := by
  rw [bufOperand_eq]
  apply BitVec.eq_of_getLsbD_eq
  intro k hk
  simp only [bufWord, BitVec.getLsbD_extractLsb', BitVec.getLsbD_append]
  simp [hk]

end Sys2Proof
end

