-- ==== Sys2Proof/Laws/State.lean ====
section
/-! SUPPORT. One lemma for each field under each state update: no later proof unfolds a record update. -/

namespace Sys2Proof.Machine

variable (s : State) (p : PayVec) (f : PayField) (n : Nat) (v : RspWord) (c : BitVec 3) (w : CmdWord)

@[simp] theorem State.setPay_pay : (s.setPay p).pay = p := rfl
@[simp] theorem State.setPay_fault : (s.setPay p).fault = s.fault := rfl
@[simp] theorem State.setPay_fcode : (s.setPay p).fcode = s.fcode := rfl
@[simp] theorem State.setPay_inputs : (s.setPay p).inputs = s.inputs := rfl
@[simp] theorem State.setPay_rsp : (s.setPay p).rsp = s.rsp := rfl

@[simp] theorem State.setField_pay : (s.setField f n).pay = writeField s.pay f n := rfl
@[simp] theorem State.setField_fault : (s.setField f n).fault = s.fault := rfl
@[simp] theorem State.setField_fcode : (s.setField f n).fcode = s.fcode := rfl
@[simp] theorem State.setField_inputs : (s.setField f n).inputs = s.inputs := rfl
@[simp] theorem State.setField_rsp : (s.setField f n).rsp = s.rsp := rfl

@[simp] theorem State.respond_pay : (s.respond v).pay = s.pay := rfl
@[simp] theorem State.respond_fault : (s.respond v).fault = s.fault := rfl
@[simp] theorem State.respond_fcode : (s.respond v).fcode = s.fcode := rfl
@[simp] theorem State.respond_inputs : (s.respond v).inputs = s.inputs := rfl
@[simp] theorem State.respond_rsp : (s.respond v).rsp = some v := rfl

@[simp] theorem State.noResponse_pay : s.noResponse.pay = s.pay := rfl
@[simp] theorem State.noResponse_fault : s.noResponse.fault = s.fault := rfl
@[simp] theorem State.noResponse_fcode : s.noResponse.fcode = s.fcode := rfl
@[simp] theorem State.noResponse_inputs : s.noResponse.inputs = s.inputs := rfl
@[simp] theorem State.noResponse_rsp : s.noResponse.rsp = none := rfl

@[simp] theorem State.latchFault_pay : (s.latchFault c).pay = s.pay := rfl
@[simp] theorem State.latchFault_fault : (s.latchFault c).fault = true := rfl
@[simp] theorem State.latchFault_fcode : (s.latchFault c).fcode = c := rfl
@[simp] theorem State.latchFault_inputs : (s.latchFault c).inputs = s.inputs := rfl
@[simp] theorem State.latchFault_rsp : (s.latchFault c).rsp = s.rsp := rfl

@[simp] theorem State.clearFault_pay : s.clearFault.pay = s.pay := rfl
@[simp] theorem State.clearFault_fault : s.clearFault.fault = false := rfl
@[simp] theorem State.clearFault_fcode : s.clearFault.fcode = 0 := rfl
@[simp] theorem State.clearFault_inputs : s.clearFault.inputs = s.inputs := rfl
@[simp] theorem State.clearFault_rsp : s.clearFault.rsp = s.rsp := rfl

@[simp] theorem State.raisePrecondition_pay : (s.raisePrecondition c).pay = s.pay := rfl
@[simp] theorem State.raisePrecondition_fault : (s.raisePrecondition c).fault = true := rfl
@[simp] theorem State.raisePrecondition_fcode : (s.raisePrecondition c).fcode = c := rfl
@[simp] theorem State.raisePrecondition_inputs : (s.raisePrecondition c).inputs = s.inputs := rfl
@[simp] theorem State.raisePrecondition_rsp : (s.raisePrecondition c).rsp = some rspNone := rfl

@[simp] theorem State.applyReset_pay : s.applyReset.pay = 0 := rfl
@[simp] theorem State.applyReset_fault : s.applyReset.fault = false := rfl
@[simp] theorem State.applyReset_fcode : s.applyReset.fcode = 0 := rfl
@[simp] theorem State.applyReset_inputs : s.applyReset.inputs = s.inputs := rfl
@[simp] theorem State.applyReset_rsp : s.applyReset.rsp = none := rfl

@[simp] theorem State.idle_pay : s.idle.pay = s.pay := rfl
@[simp] theorem State.idle_fault : s.idle.fault = s.fault := rfl
@[simp] theorem State.idle_fcode : s.idle.fcode = s.fcode := rfl
@[simp] theorem State.idle_inputs : s.idle.inputs = s.inputs := rfl
@[simp] theorem State.idle_rsp : s.idle.rsp = none := rfl

@[simp] theorem State.notTaken_pay : s.notTaken.pay = s.pay := rfl
@[simp] theorem State.notTaken_fault : s.notTaken.fault = s.fault := rfl
@[simp] theorem State.notTaken_fcode : s.notTaken.fcode = s.fcode := rfl
@[simp] theorem State.notTaken_inputs : s.notTaken.inputs = s.inputs := rfl
@[simp] theorem State.notTaken_rsp : s.notTaken.rsp = none := rfl

@[simp] theorem State.present_pay : (s.present w).pay = s.pay := rfl
@[simp] theorem State.present_fault : (s.present w).fault = s.fault := rfl
@[simp] theorem State.present_fcode : (s.present w).fcode = s.fcode := rfl
@[simp] theorem State.present_inputs : (s.present w).inputs = ⟨false, some w⟩ :: s.inputs := rfl
@[simp] theorem State.present_rsp : (s.present w).rsp = s.rsp := rfl

@[simp] theorem State.raw_setPay (g : PayField) : (s.setPay p).raw g = readField p g := rfl
@[simp] theorem State.raw_setField (g : PayField) : (s.setField f n).raw g = readField (writeField s.pay f n) g := rfl
@[simp] theorem State.raw_respond (g : PayField) : (s.respond v).raw g = s.raw g := rfl
@[simp] theorem State.raw_raisePrecondition (g : PayField) : (s.raisePrecondition c).raw g = s.raw g := rfl

end Sys2Proof.Machine
end

