-- ==== Sys2Proof/Laws/Exec.lean ====
section
/-! SUPPORT. What a command, an input and a step can do, said once. -/

namespace Sys2Proof.Machine

@[simp] theorem command_operating {s t : State} (h : s.fault = false) : command s t = .next t := by
  simp [command, h]

@[simp] theorem command_faulted {s t : State} (h : s.fault = true) : command s t = .fault .commandWhileFaulted := by
  simp [command, h]

theorem command_next {s t u : State} (h : command s t = .next u) : s.fault = false ∧ u = t := by
  unfold command at h
  split at h
  · cases h
  · next hf => cases h; simpa using hf

/-- A strict setter either writes its field or takes the exception. -/
theorem strictSet_cases (ok : Bool) (c : BitVec 3) (f : PayField) (e : Int) (s : State) :
    (ok = true ∧ strictSet ok c f e s = (s.setField f (rawOf f.width e)).respond rspNone) ∨
    (ok = false ∧ strictSet ok c f e s = s.raisePrecondition c) := by
  cases ok <;> simp [strictSet]

/-- Everything a command can do where it is performed: respond only; replace PAY; write the fields of its own list;
or take the exception, which only the five strict setters do, each with its own codes. -/
theorem exec_next {i : Instr} {s t : State} (h : exec i s = .next t) : s.fault = false ∧
    ((Instr.isRead i = true ∧ ∃ v, t = s.respond v) ∨
     (∃ p, (i = .clr ∧ p = 0 ∨ i = .load p) ∧ t = (s.setPay p).respond rspNone) ∨
     (∃ n, i = .setver n ∧ verOk n = true ∧ t = (s.setField .ver (rawOf 4 (encVer n))).respond rspNone) ∨
     (∃ x, i = .settemp x ∧ tempOk x = true ∧ t = (s.setField .temp (rawOf 10 (encTemp x))).respond rspNone) ∨
     (∃ x, i = .sethum x ∧ humOk x = true ∧ t = (s.setField .hum (rawOf 7 (encHum x))).respond rspNone) ∨
     (∃ x, i = .setgas x ∧ gasOk x = true ∧ t = (s.setField .gas (rawOf 7 (encGas x))).respond rspNone) ∨
     (∃ x y, i = .setgps x y ∧ gpsOk x = true ∧ gpsOk y = true ∧
        t = ((s.setField .lat (rawOf 24 (encGps x))).setField .lon (rawOf 24 (encGps y))).respond rspNone) ∨
     (∃ b, i = .setbat b ∧ t = (s.setField .bat (encBat b)).respond rspNone) ∨
     (∃ c, t = s.raisePrecondition c ∧
        ((∃ n, i = .setver n ∧ verOk n = false ∧ c = codeVersion) ∨
         (∃ x, i = .settemp x ∧ tempOk x = false ∧ c = codeTemperature) ∨
         (∃ x, i = .sethum x ∧ humOk x = false ∧ c = codeHumidity) ∨
         (∃ x, i = .setgas x ∧ gasOk x = false ∧ c = codeGas) ∨
         (∃ x y, i = .setgps x y ∧ gpsOk x = false ∧ c = codeLatitude) ∨
         (∃ x y, i = .setgps x y ∧ gpsOk x = true ∧ gpsOk y = false ∧ c = codeLongitude)))) := by
  cases i with
  | clr => obtain ⟨hf, rfl⟩ := command_next h; exact ⟨hf, .inr (.inl ⟨0, .inl ⟨rfl, rfl⟩, rfl⟩)⟩
  | load b => obtain ⟨hf, rfl⟩ := command_next h; exact ⟨hf, .inr (.inl ⟨b, .inr rfl, rfl⟩)⟩
  | setver n =>
    obtain ⟨hf, rfl⟩ := command_next h
    rcases strictSet_cases (verOk n) codeVersion .ver (encVer n) s with ⟨ho, e⟩ | ⟨ho, e⟩
    · exact ⟨hf, .inr (.inr (.inl ⟨n, rfl, ho, e⟩))⟩
    · exact ⟨hf, by rw [e]; simp [ho]⟩
  | settemp x =>
    obtain ⟨hf, rfl⟩ := command_next h
    rcases strictSet_cases (tempOk x) codeTemperature .temp (encTemp x) s with ⟨ho, e⟩ | ⟨ho, e⟩
    · exact ⟨hf, .inr (.inr (.inr (.inl ⟨x, rfl, ho, e⟩)))⟩
    · exact ⟨hf, by rw [e]; simp [ho]⟩
  | sethum x =>
    obtain ⟨hf, rfl⟩ := command_next h
    rcases strictSet_cases (humOk x) codeHumidity .hum (encHum x) s with ⟨ho, e⟩ | ⟨ho, e⟩
    · exact ⟨hf, .inr (.inr (.inr (.inr (.inl ⟨x, rfl, ho, e⟩))))⟩
    · exact ⟨hf, by rw [e]; simp [ho]⟩
  | setgas x =>
    obtain ⟨hf, rfl⟩ := command_next h
    rcases strictSet_cases (gasOk x) codeGas .gas (encGas x) s with ⟨ho, e⟩ | ⟨ho, e⟩
    · exact ⟨hf, .inr (.inr (.inr (.inr (.inr (.inl ⟨x, rfl, ho, e⟩)))))⟩
    · exact ⟨hf, by rw [e]; simp [ho]⟩
  | setgps x y =>
    obtain ⟨hf, rfl⟩ := command_next h
    cases hx : gpsOk x with
    | false => exact ⟨hf, by simp [hx]⟩
    | true =>
      cases hy : gpsOk y with
      | false => exact ⟨hf, by simp [hx, hy]⟩
      | true => exact ⟨hf, by simp [hx, hy]⟩
  | setbat b =>
    obtain ⟨hf, rfl⟩ := command_next h
    exact ⟨hf, .inr (.inr (.inr (.inr (.inr (.inr (.inr (.inl ⟨b, rfl, rfl⟩)))))))⟩
  | eq b => obtain ⟨hf, rfl⟩ := command_next h; exact ⟨hf, .inl ⟨rfl, _, rfl⟩⟩
  | getver => obtain ⟨hf, rfl⟩ := command_next h; exact ⟨hf, .inl ⟨rfl, _, rfl⟩⟩
  | getbat => obtain ⟨hf, rfl⟩ := command_next h; exact ⟨hf, .inl ⟨rfl, _, rfl⟩⟩
  | gettemp => obtain ⟨hf, rfl⟩ := command_next h; exact ⟨hf, .inl ⟨rfl, _, rfl⟩⟩
  | gethum => obtain ⟨hf, rfl⟩ := command_next h; exact ⟨hf, .inl ⟨rfl, _, rfl⟩⟩
  | getgas => obtain ⟨hf, rfl⟩ := command_next h; exact ⟨hf, .inl ⟨rfl, _, rfl⟩⟩
  | getgps => obtain ⟨hf, rfl⟩ := command_next h; exact ⟨hf, .inl ⟨rfl, _, rfl⟩⟩
  | view => obtain ⟨hf, rfl⟩ := command_next h; exact ⟨hf, .inl ⟨rfl, _, rfl⟩⟩

/-- Everything one presentation can do: reset, idle, a command word not taken, a command performed. -/
theorem serve_next {p : PortInput} {s t : State} (h : serve p s = .next t) :
    (p.rst = true ∧ t = s.applyReset) ∨ (p.rst = false ∧ p.cmd = none ∧ t = s.idle) ∨
    (p.rst = false ∧ s.fault = true ∧ (∃ w, p.cmd = some w) ∧ t = s.notTaken) ∨
    (p.rst = false ∧ s.fault = false ∧ ∃ w, p.cmd = some w ∧ exec (decode w) s = .next t) := by
  obtain ⟨rst, cmd⟩ := p
  cases rst with
  | true => left; refine ⟨rfl, ?_⟩; simpa [serve] using h.symm
  | false =>
    right
    cases cmd with
    | none => left; refine ⟨rfl, rfl, ?_⟩; simpa [serve] using h.symm
    | some w =>
      right
      cases hf : s.fault with
      | true => left; refine ⟨rfl, rfl, ⟨w, rfl⟩, ?_⟩; simpa [serve, hf] using h.symm
      | false => right; refine ⟨rfl, rfl, w, rfl, ?_⟩; simpa [serve, hf] using h

/-- Everything a step can do: idle where nothing is left, else the next presentation served. -/
theorem step_next {s t : State} (h : step s = .next t) :
    (s.inputs = [] ∧ t = s.idle) ∨
    ∃ p rest, s.inputs = p :: rest ∧ serve p { s with inputs := rest } = .next t := by
  unfold step serveNext at h
  split at h
  · next e => exact .inl ⟨e, by simpa using h.symm⟩
  · next p rest e => exact .inr ⟨p, rest, e, h⟩

end Sys2Proof.Machine
end

