-- ==== Sys2Proof/Laws/Layout.lean ====
section
/-! SUPPORT. What `extract`, `insert` and the byte view say bit by bit: everything later about fields and bytes rests
on these. -/

namespace Sys2Proof.Machine

theorem testBit_extractBits (pay : PayVec) (p w k : Nat) :
    (extractBits pay p w).testBit k = (decide (k < w) && pay.getLsbD (80 - p - w + k)) := by
  simp [extractBits, BitVec.testBit_toNat]

theorem extractBits_lt (pay : PayVec) (p w : Nat) : extractBits pay p w < 2 ^ w := by
  simpa [extractBits] using (pay.extractLsb' (80 - p - w) w).isLt

theorem readField_lt (pay : PayVec) (f : PayField) : readField pay f < 2 ^ f.width := extractBits_lt _ _ _

/-- Bit i of an insert: inside the field the bit of v, outside it the old bit. -/
theorem getLsbD_insertBits (pay : PayVec) {p w : Nat} (h : p + w ≤ 80) (v i : Nat) :
    (insertBits pay p w v).getLsbD i =
      if 80 - p - w ≤ i ∧ i < 80 - p then v.testBit (i - (80 - p - w)) else pay.getLsbD i := by
  simp only [insertBits, BitVec.getLsbD_or, BitVec.getLsbD_and, BitVec.getLsbD_not, BitVec.getLsbD_shiftLeft,
    BitVec.getLsbD_setWidth, BitVec.getLsbD_allOnes, BitVec.getLsbD_ofNat]
  by_cases hi : i < 80
  · by_cases h1 : 80 - p - w ≤ i
    · by_cases h2 : i < 80 - p
      · have h3 : i - (80 - p - w) < w := by omega
        have h4 : ¬ i < 80 - p - w := by omega
        have h5 : i - (80 - p - w) < 80 := by omega
        simp [hi, h1, h2, h3, h4, h5]
      · have h3 : ¬ i - (80 - p - w) < w := by omega
        simp [h2, h3, hi]
    · have h4 : i < 80 - p - w := by omega
      simp [h1, h4, hi]
  · have : ¬ i < 80 - p := by omega
    simp [hi, this, BitVec.getLsbD_of_ge pay i (by omega)]

theorem field_end_le (f : PayField) : f.pos + f.width ≤ 80 := by cases f <;> decide

/-- Bit i of a field write. -/
theorem getLsbD_writeField (pay : PayVec) (f : PayField) (v i : Nat) :
    (writeField pay f v).getLsbD i =
      if 80 - f.pos - f.width ≤ i ∧ i < 80 - f.pos then v.testBit (i - (80 - f.pos - f.width))
      else pay.getLsbD i :=
  getLsbD_insertBits pay (field_end_le f) v i

/-- Bit k of a field's raw value. -/
theorem testBit_readField (pay : PayVec) (f : PayField) (k : Nat) :
    (readField pay f).testBit k = (decide (k < f.width) && pay.getLsbD (80 - f.pos - f.width + k)) :=
  testBit_extractBits pay f.pos f.width k

/-- Bit j of byte i. -/
theorem getLsbD_payByte (pay : PayVec) (i : Fin 10) (j : Nat) :
    (payByte pay i).getLsbD j = (decide (j < 8) && pay.getLsbD (72 - 8 * i.val + j)) := by
  simp [payByte, BitVec.getLsbD_extractLsb']

/-- Two payloads whose ten bytes agree are equal. -/
theorem pay_ext {p q : PayVec} (h : ∀ i, payByte p i = payByte q i) : p = q := by
  apply BitVec.eq_of_getLsbD_eq
  intro k hk
  have hb := congrArg (fun b : Byte => b.getLsbD (k % 8)) (h ⟨9 - k / 8, by omega⟩)
  simp only [getLsbD_payByte] at hb
  have e : 72 - 8 * (9 - k / 8) + k % 8 = k := by omega
  have m : k % 8 < 8 := by omega
  simpa [e, m] using hb

/-- Byte i of the vector of ten bytes is the i-th of them. -/
theorem payByte_payOfBytes (b : Fin 10 → Byte) (i : Fin 10) : payByte (payOfBytes b) i = b i := by
  apply BitVec.eq_of_getLsbD_eq
  intro k hk
  rw [getLsbD_payByte]
  simp only [payOfBytes, BitVec.getLsbD_append]
  fin_cases i <;> simp [hk] <;> (repeat (first | rw [if_neg (by omega)] | rw [if_pos (by omega)])) <;>
    (congr 1; first | omega | (dsimp only; omega))

end Sys2Proof.Machine
end

