-- ==== Sys2Proof/Laws/PerInstr.lean ====
section
/-! SUPPORT. Statements about every instruction as syntax, one lemma for each constructor. -/

namespace Sys2Proof.Laws.EncodeCarriesOpcode

/-- The canonical word of a command lies in the row of R62 that its opcode numbers: `match` = opcode << 128. -/
def Statement (i : Instr) : Prop := encode i &&& opcodeMask = i.opcode.setWidth 132 <<< 128

/-- The top four bits of any word put together from an opcode and 128 operand bits. -/
theorem mask_append (op : BitVec 4) (ab : BitVec 128) :
    (op ++ ab : BitVec 132) &&& opcodeMask = op.setWidth 132 <<< 128 := by
  apply BitVec.eq_of_getLsbD_eq
  intro k hk
  have hm : opcodeMask = BitVec.allOnes 4 ++ 0#128 := by decide
  simp only [hm, BitVec.getLsbD_and, BitVec.getLsbD_append, BitVec.getLsbD_allOnes, BitVec.getLsbD_shiftLeft,
    BitVec.getLsbD_setWidth]
  by_cases h : k < 128
  · simp [h]
  · have h1 : k - 128 < 4 := by omega
    have h2 : k - 128 < 132 := by omega
    simp [h, h1, h2, hk]

theorem cmdWord_row (op : BitVec 4) (a b : BitVec 64) : cmdWord op a b &&& opcodeMask = op.setWidth 132 <<< 128 := by
  have h : cmdWord op a b = (op ++ (a ++ b) : BitVec 132) := BitVec.append_assoc
  rw [h, mask_append]

theorem bufWord_row (op : BitVec 4) (buf : PayVec) : bufWord op buf &&& opcodeMask = op.setWidth 132 <<< 128 := by
  have h : bufWord op buf = (op ++ (buf ++ 0#48) : BitVec 132) := BitVec.append_assoc
  rw [h, mask_append]

theorem clr : Statement .clr := cmdWord_row _ _ _
theorem load (buf : PayVec) : Statement (.load buf) := bufWord_row _ _
theorem eq (buf : PayVec) : Statement (.eq buf) := bufWord_row _ _
theorem setver (n : Int) : Statement (.setver n) := cmdWord_row _ _ _
theorem settemp (t : Real64) : Statement (.settemp t) := cmdWord_row _ _ _
theorem sethum (h : Real64) : Statement (.sethum h) := cmdWord_row _ _ _
theorem setgas (g : Real64) : Statement (.setgas g) := cmdWord_row _ _ _
theorem setgps (lat lon : Real64) : Statement (.setgps lat lon) := cmdWord_row _ _ _
theorem setbat (b : Bool) : Statement (.setbat b) := cmdWord_row _ _ _
theorem getver : Statement .getver := cmdWord_row _ _ _
theorem getbat : Statement .getbat := cmdWord_row _ _ _
theorem gettemp : Statement .gettemp := cmdWord_row _ _ _
theorem gethum : Statement .gethum := cmdWord_row _ _ _
theorem getgas : Statement .getgas := cmdWord_row _ _ _
theorem getgps : Statement .getgps := cmdWord_row _ _ _
theorem view : Statement .view := cmdWord_row _ _ _

end Sys2Proof.Laws.EncodeCarriesOpcode
end

