-- ==== Sys2Proof/Laws/Pseudo.lean ====
section
/-! SUPPORT. What a pseudo-operation over two instances can do, and that VIEW's bytes are the payload. -/

namespace Sys2Proof.Machine

/-- The upper 80 bits of a VIEW response are PAYV (`44_view.md` R89). -/
@[simp] theorem viewBytes_rspView (pay : PayVec) : viewBytes (rspView pay) = pay := by
  apply BitVec.eq_of_getLsbD_eq
  intro k hk
  have h1 : ¬ 48 + k < 4 := by omega
  have h2 : ¬ 48 + k - 4 < 44 := by omega
  have h3 : 48 + k - 4 - 44 = k := by omega
  simp only [viewBytes, rspView, BitVec.getLsbD_extractLsb', BitVec.getLsbD_append, if_neg h1, if_neg h2, h3]
  simp [hk]

/-- VIEW on x and then a command on y: both were performed, and x kept its block. -/
theorem viewThen_next {cmd : PayVec → State → Host.Outcome State Fault Refusal} {y x : State} {p : State × State}
    (h : viewThen cmd y x = .next p) :
    x.fault = false ∧ ∃ y', cmd x.pay y = .next y' ∧ p = (y', x.respond (rspView x.pay)) := by
  unfold viewThen at h
  split at h
  · next x' hx =>
    obtain ⟨hf, rfl⟩ := command_next hx
    rw [viewBytes_rspView] at h
    split at h
    · next y' hy => exact ⟨hf, y', hy, by simpa using h.symm⟩
    · cases h
    · cases h
  · cases h
  · cases h

end Sys2Proof.Machine
end

