-- ==== Sys2Proof/Tests/Slice0.lean ====
section
/-! SUPPORT. The model's own tests. Expected results are the spec's own vectors (`95_test_vectors.md`,
`96_test_vectors_fields.md`), each named by its id, and words written out from `30_encoding.md` R57 and R62. After them,
for every statement with hypotheses, concrete values that meet them. -/

namespace Sys2Proof.Tests

open Sys2Proof.Machine Sys2Proof.Claims

/-- An operating block with the given payload. -/
def blk (pay : PayVec) : State := { State.reset with pay := pay }

/-- A block stopped by the given code. -/
def stopped (code : BitVec 3) (pay : PayVec) : State := { State.reset with pay := pay, fault := true, fcode := code }

/-- An operating block to which the host presents the given inputs. -/
def fed (ps : List PortInput) (pay : PayVec) : State := { State.reset with pay := pay, inputs := ps }

/-- The state after one command, where there is one. -/
def after (i : Instr) (s : State) : Option State :=
  match exec i s with
  | .next t => some t
  | .fault _ => none
  | .refused _ => none

/-- PAY, FAULT, FCODE after one command. -/
def block (i : Instr) (s : State) : Option (PayVec × Bool × BitVec 3) :=
  (after i s).map fun t => (t.pay, t.fault, t.fcode)

/-- The response of one command. -/
def reply (i : Instr) (s : State) : Option RspWord := (after i s).bind fun t => t.rsp

/-- PAY, FAULT, FCODE and the response after one step. -/
def stepped (s : State) : Option (PayVec × Bool × BitVec 3 × Option RspWord) :=
  match step s with
  | .next t => some (t.pay, t.fault, t.fcode, t.rsp)
  | .fault _ => none
  | .refused _ => none

/-! ### Well-formedness refuses what no command word can spell -/

theorem test_wf_refuses_above : (Instr.setver 2147483648).wf = false := by decide
theorem test_wf_refuses_below : (Instr.setver (-2147483649)).wf = false := by decide

/-! ### Decoding: one word a command, written out from R57 and R62 -/

/-- OP = 0011, A[31:0] = ...1010, every ignored bit set: n = 10. -/
theorem test_decode_setver_bits :
    decode (0b0011#4 ++ 0xFFFFFFFF#32 ++ 0b00000000000000000000000000001010#32 ++ 0xFFFFFFFFFFFFFFFF#64) =
      .setver 10 := by decide
/-- OP = 0001; the ten bytes; 48 ignored bits. -/
theorem test_decode_load_bits :
    decode (0b0001#4 ++ (0x01#8 ++ 0x02#8 ++ 0x03#8 ++ 0x04#8 ++ 0x05#8 ++ 0x06#8 ++ 0x07#8 ++ 0x08#8 ++ 0x09#8 ++
      0x0A#8) ++ 0xFFFFFFFFFFFF#48) = .load 0x0102030405060708090A#80 := by decide
theorem test_decode_clr : decode 0x0123456789ABCDEF0FFFFFFFFFFFFFFFF#132 = .clr := by decide
theorem test_decode_eq : decode 0x2A000006E33048C0C74DDFFFFFFFFFFFF#132 = .eq 0xA000006E33048C0C74DD#80 := by decide
theorem test_decode_setver_negative : decode 0x300000000FFFFFFFF0000000000000000#132 = .setver (-1) := by decide
theorem test_decode_settemp : decode 0x440358000000000000000000000000000#132 = .settemp 0x4035800000000000#64 := by
  decide
theorem test_decode_sethum : decode 0x540468000000000000000000000000000#132 = .sethum 0x4046800000000000#64 := by
  decide
theorem test_decode_setgas : decode 0x64004CCCCCCCCCCCD0000000000000000#132 = .setgas 0x4004CCCCCCCCCCCD#64 := by
  decide
theorem test_decode_setgps : decode 0x740634B3333333333C058975DCC63F141#132 =
    .setgps 0x40634B3333333333#64 0xC058975DCC63F141#64 := by decide
theorem test_decode_setbat_VB6 : decode 0x8FFFFFFFFFFFFFFFE0000000000000000#132 = .setbat false := by decide
theorem test_decode_setbat_VB7 : decode 0x800000000000000030000000000000000#132 = .setbat true := by decide
theorem test_decode_getver : decode 0x9FFFFFFFFFFFFFFFFFFFFFFFFFFFFFFFF#132 = .getver := by decide
theorem test_decode_getbat : decode 0xA00000000000000000000000000000000#132 = .getbat := by decide
theorem test_decode_gettemp : decode 0xB00000000000000000000000000000000#132 = .gettemp := by decide
theorem test_decode_gethum : decode 0xC00000000000000000000000000000000#132 = .gethum := by decide
theorem test_decode_getgas : decode 0xD00000000000000000000000000000000#132 = .getgas := by decide
theorem test_decode_getgps : decode 0xE00000000000000000000000000000000#132 = .getgps := by decide
theorem test_decode_view : decode 0xF00000000000000000000000000000000#132 = .view := by decide

theorem test_decode_rejects_wide : decodeNumber (2 ^ 132) = .error .widerThanCommandPort := by decide
theorem test_table_word_setgps : decodeTableWord 136 0x740634B3333333333C058975DCC63F141 =
    some (.setgps 0x40634B3333333333#64 0xC058975DCC63F141#64) := by decide
theorem test_encode_setver_VW4 : encode (.setver 10) = 0x3000000000000000A0000000000000000#132 := by decide
theorem test_encode_load_VW2 : encode (.load 0xA000006E33048C0C74DD#80) = 0x1A000006E33048C0C74DD000000000000#132 := by
  decide

/-! ### The commands -/

theorem test_clr_VC2 : block .clr (blk 0xFFFFFFFFFFFFFFFFFFFF#80) = some (0, false, 0) := by decide
theorem test_load_VC4 : block (.load 0xFFFFFFFFFFFFFFFFFFFF#80) (blk 0xA000006E33048C0C74DD#80) =
    some (0xFFFFFFFFFFFFFFFFFFFF#80, false, 0) := by decide
theorem test_eq_VE5 : reply (.eq 0) (blk 0x07000000000000000000#80) = some 0 := by decide
theorem test_eq_VE3 : reply (.eq 0xA000006E33048C0C74DD#80) (blk 0xA000006E33048C0C74DD#80) =
    some 0x00000000000000010000000000000000#128 := by decide
theorem test_setver_VN12 : block (.setver 10) (blk 0x5F000000000000000000#80) =
    some (0xAF000000000000000000#80, false, 0) := by decide +kernel
theorem test_setver_VN6 : block (.setver (-1)) (blk 0x5F000000000000000000#80) =
    some (0x5F000000000000000000#80, true, 1) := by decide
theorem test_settemp_VT7 : block (.settemp 0xC048CCCCCCCCCCCD#64) (blk 0) =
    some (0x00004000000000000000#80, false, 0) := by decide +kernel
theorem test_settemp_VT13 : block (.settemp 0x4063566666666667#64) (blk 0x0059400000000000000A#80) =
    some (0x0059400000000000000A#80, true, 2) := by decide +kernel
theorem test_sethum_PRG6_7 : block (.sethum 0x4059000000000000#64) (blk 0xFF000000FFFFFFFFFFFF#80) =
    some (0xFF003F80FFFFFFFFFFFF#80, false, 0) := by decide +kernel
theorem test_sethum_VH14 : block (.sethum 0x7FF8000000000000#64) (blk 0) = some (0, true, 3) := by decide +kernel
theorem test_setgas_VI20 : block (.setgas 0x4004CCCCCCCCCCCD#64) (blk 0x00001C80000000000000#80) =
    some (0x00001CEE000000000000#80, false, 0) := by decide +kernel
theorem test_setgas_VG11 : block (.setgas 0x8000000000000001#64) (blk 0) = some (0, true, 4) := by decide +kernel
theorem test_setgps_S3 : block (.setgps 0x40634B3333333333#64 0xC058975DCC63F141#64) (blk 0) =
    some (0x0000000033048C0C74DD#80, false, 0) := by decide +kernel
theorem test_setgps_VP22 : block (.setgps 0 0x406680083126E979#64) (blk 0x0000000033048C0C74DD#80) =
    some (0x0000000033048C0C74DD#80, true, 6) := by decide +kernel
theorem test_setbat_VB4 : block (.setbat false) (blk 0xFF000000000000000000#80) =
    some (0xF7000000000000000000#80, false, 0) := by decide +kernel
theorem test_getver_VQ13 : reply .getver (blk 0xA8595CEE33048C0C74DD#80) =
    some 0x000000000000000A0000000000000000#128 := by decide +kernel
theorem test_getbat_VQ14 : reply .getbat (blk 0xA8595CEE33048C0C74DD#80) =
    some 0x00000000000000010000000000000000#128 := by decide +kernel
theorem test_gettemp_VQ15 : reply .gettemp (blk 0xA8595CEE33048C0C74DD#80) =
    some 0x40356666666666680000000000000000#128 := by decide +kernel
theorem test_gettemp_VR3 : reply .gettemp (blk 0x003E8000000000000000#80) = some 0 := by decide +kernel
theorem test_gethum_VQ16 : reply .gethum (blk 0xA8595CEE33048C0C74DD#80) =
    some 0x404670E1C3870E1C0000000000000000#128 := by decide +kernel
theorem test_getgas_VQ17 : reply .getgas (blk 0xA8595CEE33048C0C74DD#80) =
    some 0x4004A0151ECDF27D0000000000000000#128 := by decide +kernel
theorem test_getgps_VQ18 : reply .getgps (blk 0xA8595CEE33048C0C74DD#80) =
    some 0x40634B3333333334C058975DCC63F141#128 := by decide +kernel
theorem test_getgps_VQ12 : reply .getgps (blk 0xFFFFFFFFFFFFFFFFFFFF#80) =
    some 0x409766E2D0E56042409766E2D0E56042#128 := by decide +kernel
theorem test_view_VV4 : reply .view (blk 0x0102030405060708090A#80) =
    some 0x0102030405060708090A00000000000A#128 := by decide

/-! ### The ports (program PRG4, rows 3 to 6) -/

theorem test_step_PRG4_3 :
    stepped ((blk 0x305DC000000000000000#80).withFetchWord 136 0x5405900A3D70A3D710000000000000000) =
      some (0x305DC000000000000000#80, true, 3, some 0) := by decide +kernel
theorem test_step_PRG4_4 :
    stepped ((stopped 3 0x305DC000000000000000#80).withFetchWord 136 0xF00000000000000000000000000000000) =
      some (0x305DC000000000000000#80, true, 3, none) := by decide +kernel
theorem test_step_PRG4_6 :
    stepped { stopped 3 0x305DC000000000000000#80 with inputs := [⟨true, none⟩] } = some (0, false, 0, none) := by
  decide
theorem test_step_reset_wins :
    stepped (fed [⟨true, some 0x1FFFFFFFFFFFFFFFFFFFF000000000000#132⟩] 5) = some (0, false, 0, none) := by decide
theorem test_copy_PRG5 :
    (match pseudoCopy State.reset (blk 0xA000006E000000000000#80) with
      | .next p => some (p.1.pay, p.2.pay)
      | .fault _ => none
      | .refused _ => none) = some (0xA000006E000000000000#80, 0xA000006E000000000000#80) := by decide

/-! ### Every statement's hypotheses are met -/

/-- A step that answers a state, for the hypotheses of the statements about steps. -/
theorem witness_step_next : (stepped (fed [⟨false, some (encode (.setver 15))⟩] 0)).isSome = true := by decide +kernel

theorem witness_DecodeEncodeRoundTrip :
    (Instr.setver (-2147483648)).wf = true ∧ (Instr.setver 2147483647).wf = true := by decide
theorem witness_DecoderIsTotalOnCommandWords : 2 ^ 132 - 1 < 2 ^ 132 ∧ 2 ^ 132 ≤ 2 ^ 132 := by decide
theorem witness_StepPerformsTheDecodedCommand :
    (fed [⟨false, some (encode .clr)⟩] 7).fault = false ∧
      (fed [⟨false, some (encode .clr)⟩] 7).inputs = ⟨false, some (encode .clr)⟩ :: [] := ⟨rfl, rfl⟩
theorem witness_ResetClearsTheBlockAndWins :
    ({ stopped 6 9 with inputs := [⟨true, some 0⟩, ⟨false, none⟩] } : State).inputs =
      ⟨true, some 0⟩ :: [⟨false, none⟩] ∧
    ∃ t, step { stopped 6 9 with inputs := [⟨true, some 0⟩] } = .next t ∧ t.fault = false := ⟨rfl, _, rfl, rfl⟩
theorem witness_FaultedBlockTakesNoCommand :
    ({ stopped 1 9 with inputs := [⟨false, some 0⟩] } : State).fault = true ∧
      ({ stopped 1 9 with inputs := [⟨false, some 0⟩] } : State).inputs = ⟨false, some 0⟩ :: [] := ⟨rfl, rfl⟩
theorem witness_IdleKeepsTheBlock : (blk 3).inputs = [] ∧ (fed [⟨false, none⟩] 3).inputs = ⟨false, none⟩ :: [] :=
  ⟨rfl, rfl⟩
theorem witness_OnlyResetLeavesTheFaultedState :
    ∃ t u, step (stopped 2 9) = .next t ∧ step { stopped 2 9 with inputs := [⟨true, none⟩] } = .next u ∧
      (stopped 2 9).fault = true ∧ t.fault = true ∧ u.fault = false := ⟨_, _, rfl, rfl, rfl, rfl, rfl⟩
theorem witness_FaultAndCodeStayConsistent :
    ∃ t, (blk 5).latchOk = true ∧ (stopped 6 5).latchOk = true ∧ step (blk 5) = .next t := ⟨_, rfl, rfl, rfl⟩
theorem witness_PayloadStaysProducibleWithoutLoad :
    ∃ t, (fed [⟨false, some (encode .clr)⟩] 0x00000000A8EE8036EE80#80).noLoadAhead = true ∧
      (blk 0x0000000036EE8036EE80#80).gpsProducible = true ∧ (blk 0x0000000036EE8036EE80#80).raw .rsv = 0 ∧
      (blk 0x0000000036EE8036EE80#80).noLoadAhead = true ∧ step (blk 0x0000000036EE8036EE80#80) = .next t :=
  ⟨_, by decide, by decide, by decide, by decide, rfl⟩
theorem witness_ResetEqualsClear : (blk 77).fault = false ∧ (blk 77).latchOk = true := by decide
theorem witness_FaultsAreExactlyTheTable :
    (blk 1).fault = false ∧ (Instr.setver 15).violation = none ∧ (Instr.setver 16).violation = some 1 ∧
      (Instr.settemp cTHi).violation = none ∧ (Instr.settemp 0x4063566666666667#64).violation = some 2 ∧
      (Instr.setgps cPHi 0x7FF0000000000000#64).violation = some 6 ∧
      (Instr.setgps 0x4066800000000001#64 0x7FF0000000000000#64).violation = some 5 := by decide +kernel

theorem witness_InsertThenExtractIsolation :
    1023 < 2 ^ PayField.width .temp ∧ PayField.hum ≠ PayField.temp := by decide
theorem witness_ExtractByBytes : ∀ i, (fun i => (payByte 0x0102030405060708090A#80 i).toNat) i =
    (payByte 0x0102030405060708090A#80 i).toNat := fun _ => rfl
theorem witness_InsertByBytes :
    15 < 2 ^ 4 ∧ 1 < 2 ^ 1 ∧ 1023 < 2 ^ 10 ∧ 127 < 2 ^ 7 ∧ 16777215 < 2 ^ 24 ∧
      ∀ i, payByte 7 i = payByte 7 i := by decide
theorem witness_BytesReadAndWriteBigEndian : 8 + 2 ≤ 10 ∧ 10 < 9 + 2 ∧ 0 + 0 ≤ 10 := by decide
theorem witness_NoCommandTouchesOtherFields :
    ∃ t, exec (.setver 15) (blk 3) = .next t ∧ PayField.bat ∉ Instr.writes (.setver 15) := ⟨_, rfl, by decide⟩
theorem witness_ReservedBitsAreOrdinaryStorage :
    ∃ t u v, exec .clr (blk 3) = .next t ∧ exec (.load 9) (blk 3) = .next u ∧ exec (.setbat true) (blk 3) = .next v ∧
      Instr.setbat true ≠ .clr ∧ Instr.isLoad (.setbat true) = false ∧ (blk 3).fault = false ∧ 7 < 8 ∧
      7 ≠ (blk 3).raw .rsv := ⟨_, _, _, rfl, rfl, rfl, by decide, rfl, rfl, by decide, by decide⟩

theorem witness_ArithmeticIsCorrectlyRounded :
    isFinite cTHi = true ∧ isFinite cGas = true ∧ val cGas ≠ 0 ∧ |val cTHi / val cGas| ≤ val maxFinite := by
  decide +kernel
theorem witness_CompareFollowsTheValues :
    isFinite cTLo = true ∧ isFinite cZero = true ∧ isNaN 0x7FF8000000000000#64 = true ∧
      isNaN 0x7FF0000000000000#64 = false := by decide
theorem witness_TruncationGoesTowardZero :
    isFinite cTHi = true ∧ 0 ≤ val cTHi ∧ isFinite cTLo = true ∧ val cTLo ≤ 0 := by decide +kernel
theorem witness_IntegerConversionIsExact : 16777215 < 2 ^ 24 := by decide
theorem witness_EncodedValuesFitTheirFields :
    verOk 15 = true ∧ tempOk cTHi = true ∧ humOk cHHi = true ∧ gasOk cGHi = true ∧ gpsOk cPHi = true := by
  decide +kernel
theorem witness_EncodersAreMonotone :
    fle c50 c100 = true ∧ tempOk c50 = true ∧ tempOk c100 = true ∧ humOk c50 = true ∧ humOk c100 = true ∧
      gpsOk c50 = true ∧ gpsOk c100 = true ∧ fle cZero cGHi = true ∧ gasOk cZero = true ∧ gasOk cGHi = true := by
  decide +kernel
theorem witness_EveryRawValueDecodes : 1023 < 1024 ∧ 127 < 128 ∧ 16777215 < 2 ^ 24 := by decide
theorem witness_QuantizationLosesLessThanOneStep :
    tempOk cTLo = true ∧ humOk cZero = true ∧ gasOk cZero = true ∧ gpsOk cPLo = true := by decide +kernel

/-- For the statements that assume an operating block, and the words with each opcode. -/
theorem witness_commands_operating :
    (blk 0xA8595CEE33048C0C74DD#80).fault = false ∧ HasOp 0x0#4 (encode .clr) ∧ HasOp 0x1#4 (encode (.load 5)) ∧
      HasOp 0x2#4 (encode (.eq 5)) ∧ HasOp 0x3#4 (encode (.setver 5)) ∧ HasOp 0x4#4 (encode (.settemp 5)) ∧
      HasOp 0x5#4 (encode (.sethum 5)) ∧ HasOp 0x6#4 (encode (.setgas 5)) ∧ HasOp 0x7#4 (encode (.setgps 5 6)) := by
  unfold HasOp
  decide
theorem witness_commands_operating_more :
    HasOp 0x8#4 (encode (.setbat true)) ∧ HasOp 0x9#4 (encode .getver) ∧ HasOp 0xA#4 (encode .getbat) ∧
      HasOp 0xB#4 (encode .gettemp) ∧ HasOp 0xC#4 (encode .gethum) ∧ HasOp 0xD#4 (encode .getgas) ∧
      HasOp 0xE#4 (encode .getgps) ∧ HasOp 0xF#4 (encode .view) := by
  unfold HasOp
  decide
theorem witness_EqComparesTheTenBytes :
    (∀ i, payByte 5 i = payByte 5 i) ∧ (∃ i, payByte 5 i ≠ payByte 4 i) ∧ 79 < 80 := by decide
theorem witness_SetverWritesTheTopNibble :
    (0 ≤ (15 : Int) ∧ (15 : Int) ≤ 15) ∧ ¬ (0 ≤ (16 : Int) ∧ (16 : Int) ≤ 15) ∧ ¬ (0 ≤ (-1 : Int) ∧ (-1 : Int) ≤ 15) := by
  decide
theorem witness_SettempWritesTheTenBits :
    (fle cTLo cTHi && fle cTHi cTHi) = true ∧ (fle cTLo cTLo && fle cTLo cTHi) = true ∧
      (fle cTLo 0x4063566666666667#64 && fle 0x4063566666666667#64 cTHi) = false ∧
      (fle cTLo 0x7FF8000000000000#64 && fle 0x7FF8000000000000#64 cTHi) = false := by decide +kernel
theorem witness_SethumWritesTheSevenBits :
    (fle cZero cHHi && fle cHHi cHHi) = true ∧ (fle cZero 0x8000000000000000#64 && fle 0x8000000000000000#64 cHHi) = true ∧
      (fle cZero 0x8000000000000001#64 && fle 0x8000000000000001#64 cHHi) = false := by decide +kernel
theorem witness_SetgasWritesTheSevenBits :
    (fle cZero cGHi && fle cGHi cGHi) = true ∧
      (fle cZero 0x4008000000000001#64 && fle 0x4008000000000001#64 cGHi) = false := by decide +kernel
theorem witness_SetgpsWritesBothOrNeither :
    (fle cPLo cPHi && fle cPHi cPHi) = true ∧ (fle cPLo cPLo && fle cPLo cPHi) = true ∧
      (fle cPLo 0x4066800000000001#64 && fle 0x4066800000000001#64 cPHi) = false := by decide +kernel
theorem witness_GettersRawValues :
    357 = ((payByte 0xA8595CEE33048C0C74DD#80 1).toNat <<< 2) ||| ((payByte 0xA8595CEE33048C0C74DD#80 2).toNat >>> 6) ∧
    57 = (((payByte 0xA8595CEE33048C0C74DD#80 2).toNat &&& 0x3F) <<< 1) |||
      ((payByte 0xA8595CEE33048C0C74DD#80 3).toNat >>> 7) ∧
    110 = (payByte 0xA8595CEE33048C0C74DD#80 3).toNat &&& 0x7F := by decide +kernel

theorem witness_ReadsHaveNoSideEffect : ∃ t u, Instr.isRead .view = true ∧ Instr.isRead .gettemp = true ∧
    exec .view (blk 3) = .next t ∧ exec .gettemp (blk 3) = .next u := ⟨_, _, rfl, rfl, rfl, rfl⟩
theorem witness_GetterAfterSetterReadsWhatWasStored :
    (blk 3).fault = false ∧ tempOk cTLo = true ∧ humOk cHHi = true ∧ gasOk cGHi = true ∧ gpsOk cPLo = true ∧
      gpsOk cPHi = true := by decide +kernel
theorem witness_CommandsOnDifferentFieldsCommute :
    (after (.setver 5) (blk 3)).bind (after (.setbat true)) = (after (.setbat true) (blk 3)).bind (after (.setver 5)) ∧
      (∀ f, f ∈ Instr.writes (.setver 5) → f ∉ Instr.writes (.setbat true)) ∧
      (((after (.setver 5) (blk 3)).bind (after (.setbat true))).map fun t => t.fault) = some false := by
  refine ⟨by decide +kernel, ?_, by decide +kernel⟩
  intro f
  cases f <;> decide
theorem witness_TheLaterWriteStays :
    (Instr.setver 5).opcode = (Instr.setver 6).opcode ∧
      (((after (.setver 5) (blk 3)).bind (after (.setver 6))).map fun t => t.fault) = some false ∧
      (after (.setver 6) (blk 3)).isSome = true := by decide +kernel
theorem witness_CopyAndMoveDuplicate : (blk 3).fault = false ∧ (blk 4).fault = false := by decide

end Sys2Proof.Tests
end

section
/-! PROOF. The numbers (`00_scope.md` R8 to R11): the order of the patterns and of their values, truncation as floor
and ceiling, and roundings that are exact. -/

namespace Sys2Proof.Proofs

open Sys2Proof.Machine

/-! ### Patterns and magnitudes -/

theorem unitScale_cast_pos : (0 : ℚ) < unitScale := Nat.cast_pos.mpr unitScale_pos

/-- A pattern is finite exactly where its exponent and fraction bits lie below those of the infinity (R6). -/
theorem isFinite_iff (r : Real64) : isFinite r = true ↔ r.toNat % 2 ^ 63 < infBits := by
  have hexp : isFinite r = true ↔ r.toNat / 2 ^ 52 % 2 ^ 11 ≠ 2047 := by
    rw [isFinite, fExp_eq, bne_iff_ne]
  rw [hexp, infBits]
  omega

/-- A pattern is no NaN exactly where its exponent and fraction bits reach no further than those of the infinity
(R6). -/
theorem isNaN_eq_false_iff (r : Real64) : isNaN r = false ↔ r.toNat % 2 ^ 63 ≤ infBits := by
  have hparts : isNaN r = false ↔ (r.toNat / 2 ^ 52 % 2 ^ 11 = 2047 → r.toNat % 2 ^ 52 = 0) := by
    simp [isNaN, fExp_eq, fFrac_eq]
  rw [hparts, infBits]
  omega

theorem isNaN_of_isFinite {r : Real64} (h : isFinite r = true) : isNaN r = false :=
  (isNaN_eq_false_iff r).mpr ((isFinite_iff r).mp h).le

theorem natAbs_units (r : Real64) : (units r).natAbs = mag r := by
  unfold units
  cases fSign r <;> simp

theorem units_of_pos {r : Real64} (h : fSign r = false) : units r = mag r := by simp [units, h]

theorem units_of_neg {r : Real64} (h : fSign r = true) : units r = -(mag r : Int) := by simp [units, h]

theorem fSign_eq_false_iff (r : Real64) : fSign r = false ↔ r.toNat < 2 ^ 63 := by
  rw [fSign, ← BitVec.msb_eq_getLsbD_last, BitVec.msb_eq_false_iff_two_mul_lt]
  omega

/-! ### The comparison (R8) -/

theorem val_le_val_iff (a b : Real64) : val a ≤ val b ↔ units a ≤ units b := by
  rw [val_eq_units, val_eq_units, div_le_div_iff_of_pos_right unitScale_cast_pos, Int.cast_le]

theorem fle_eq_true_iff {a b : Real64} (ha : isNaN a = false) (hb : isNaN b = false) :
    fle a b = true ↔ units a ≤ units b := by
  simp [fle, ha, hb]

theorem fle_nan {a b : Real64} (h : isNaN a = true ∨ isNaN b = true) : fle a b = false := by
  rcases h with h | h <;> simp [fle, h]

/-- +infinity (R6). -/
def posInf : Real64 := 0x7FF0000000000000#64

/-- -infinity (R6). -/
def negInf : Real64 := 0xFFF0000000000000#64

theorem isNaN_posInf : isNaN posInf = false := by decide

theorem isNaN_negInf : isNaN negInf = false := by decide

theorem units_posInf : units posInf = magBits infBits := by
  rw [units_of_pos (by decide), mag_eq_magBits]
  rfl

theorem units_negInf : units negInf = -(magBits infBits : Int) := by
  rw [units_of_neg (by decide), mag_eq_magBits]
  rfl

theorem mag_le_of_not_nan {r : Real64} (h : isNaN r = false) : mag r ≤ magBits infBits :=
  (mag_eq_magBits r).trans_le (magBits_strictMono.monotone ((isNaN_eq_false_iff r).mp h))

theorem mag_lt_of_isFinite {r : Real64} (h : isFinite r = true) : mag r < magBits infBits :=
  (mag_eq_magBits r).trans_lt (magBits_strictMono ((isFinite_iff r).mp h))

theorem fle_posInf {a : Real64} (h : isNaN a = false) : fle a posInf = true := by
  rw [fle_eq_true_iff h isNaN_posInf, units_posInf]
  have := mag_le_of_not_nan h
  have := natAbs_units a
  omega

theorem negInf_fle {a : Real64} (h : isNaN a = false) : fle negInf a = true := by
  rw [fle_eq_true_iff isNaN_negInf h, units_negInf]
  have := mag_le_of_not_nan h
  have := natAbs_units a
  omega

theorem not_posInf_fle_finite {a : Real64} (h : isFinite a = true) : fle posInf a = false := by
  rw [← Bool.not_eq_true, fle_eq_true_iff isNaN_posInf (isNaN_of_isFinite h), units_posInf]
  have := mag_lt_of_isFinite h
  have := natAbs_units a
  omega

theorem not_finite_fle_negInf {a : Real64} (h : isFinite a = true) : fle a negInf = false := by
  rw [← Bool.not_eq_true, fle_eq_true_iff (isNaN_of_isFinite h) isNaN_negInf, units_negInf]
  have := mag_lt_of_isFinite h
  have := natAbs_units a
  omega

theorem not_posInf_fle_negInf : fle posInf negInf = false := by
  have hpos : 0 < magBits infBits := Nat.zero_lt_of_lt (magBits_strictMono (show 0 < infBits by decide))
  rw [← Bool.not_eq_true, fle_eq_true_iff isNaN_posInf isNaN_negInf, units_posInf, units_negInf]
  omega

/-- Settles O27: on patterns that are no NaN `fle` compares `units`, which order as the values do, and the magnitude
of the infinity is above that of every finite pattern. -/
theorem compareFollowsTheValues : Obligations.CompareFollowsTheValues := by
  unfold Obligations.CompareFollowsTheValues
  refine ⟨fun a b ha hb => ?_, fun a b => fle_nan, fun a ha => ⟨fle_posInf ha, negInf_fle ha⟩,
    fun a ha => ⟨not_posInf_fle_finite ha, not_finite_fle_negInf ha⟩, not_posInf_fle_negInf⟩
  rw [fle_eq_true_iff (isNaN_of_isFinite ha) (isNaN_of_isFinite hb), val_le_val_iff]

/-! ### Truncation (R9) -/

theorem val_nonneg_iff (a : Real64) : 0 ≤ val a ↔ 0 ≤ units a := by
  rw [val_eq_units, le_div_iff₀ unitScale_cast_pos, zero_mul, Int.cast_nonneg_iff]

theorem val_nonpos_iff (a : Real64) : val a ≤ 0 ↔ units a ≤ 0 := by
  rw [val_eq_units, div_le_iff₀ unitScale_cast_pos, zero_mul, Int.cast_nonpos]

theorem ftrunc_eq_floor {a : Real64} (ha : isFinite a = true) (h : 0 ≤ val a) : ftrunc a = ⌊val a⌋ := by
  rw [ftrunc_finite ha, Int.tdiv_eq_ediv_of_nonneg ((val_nonneg_iff a).mp h), val_eq_units,
    Rat.floor_intCast_div_natCast]

theorem ftrunc_eq_ceil {a : Real64} (ha : isFinite a = true) (h : val a ≤ 0) : ftrunc a = ⌈val a⌉ := by
  have hneg : 0 ≤ -units a := neg_nonneg.mpr ((val_nonpos_iff a).mp h)
  rw [ftrunc_finite ha, val_eq_units, Rat.ceil_intCast_div_natCast, ← Int.tdiv_eq_ediv_of_nonneg hneg, Int.neg_tdiv,
    neg_neg]

/-- Settles O28: truncation is the floor of a value at or above 0 and the ceiling of one at or below 0. -/
theorem truncationGoesTowardZero : Obligations.TruncationGoesTowardZero := by
  unfold Obligations.TruncationGoesTowardZero
  intro a ha
  constructor
  · intro h
    rw [ftrunc_eq_floor ha h]
    exact ⟨Int.floor_le _, Int.lt_floor_add_one _⟩
  · intro h
    rw [ftrunc_eq_ceil ha h]
    exact ⟨Int.le_ceil _, sub_lt_iff_lt_add.mpr (Int.ceil_lt_add_one _)⟩

/-! ### Exact roundings and the conversion of an integer (R10) -/

theorem val_pack_false {b : Nat} (hb : b < 2 ^ 63) : val (pack false b) = (magBits b : ℚ) / unitScale := by
  rw [val_eq_units, units_of_pos (fSign_pack false b), mag_pack false hb, Int.cast_natCast]

/-- A quotient below 2^(53 + k) lies at most k binades above the lowest normal one. -/
theorem shiftOf_le {num den k : Nat} (h : num / den < 2 ^ (53 + k)) : shiftOf num den ≤ k := by
  by_contra hk
  have hlow := le_quotient (show 0 < shiftOf num den by omega)
  have hlt := (Nat.pow_lt_pow_iff_right (by decide)).mp (lt_of_le_of_lt hlow h)
  omega

/-- A rounding at most 2044 binades above the lowest normal one does not overflow. -/
theorem roundMag_lt_infBits {num den : Nat} (h : shiftOf num den ≤ 2044) : roundMag num den < infBits := by
  have hsig := (significand_bounds (num := num) (den := den)).1
  have hbits : shiftOf num den * 2 ^ 52 + roundHalfEven num (den * 2 ^ shiftOf num den) < infBits := by
    unfold infBits
    omega
  exact lt_of_le_of_lt (Nat.min_le_left _ _) hbits

/-- A whole number of spacings is rounded to itself. -/
theorem magBits_roundMag_of_dvd {num : Nat} (hdvd : 2 ^ shiftOf num 1 ∣ num) (hfin : roundMag num 1 < infBits) :
    magBits (roundMag num 1) = num := by
  obtain ⟨m, hm⟩ := hdvd
  rw [magBits_roundMag hfin, one_mul]
  generalize shiftOf num 1 = sh at hm
  rw [hm, Nat.mul_comm (2 ^ sh) m, roundHalfEven_exact m (Nat.two_pow_pos sh)]

/-- A 53-bit significand at most 2044 binades up is rounded to itself, without overflow. -/
theorem roundMag_mul_two_pow {n k : Nat} (hn : n < 2 ^ 53) (hk : k ≤ 2044) :
    roundMag (n * 2 ^ k) 1 < infBits ∧ magBits (roundMag (n * 2 ^ k) 1) = n * 2 ^ k := by
  have hsh : shiftOf (n * 2 ^ k) 1 ≤ k := by
    apply shiftOf_le
    rw [Nat.div_one, Nat.pow_add]
    exact Nat.mul_lt_mul_of_pos_right hn (Nat.two_pow_pos k)
  have hfin := roundMag_lt_infBits (hsh.trans hk)
  exact ⟨hfin, magBits_roundMag_of_dvd (Nat.dvd_mul_left_of_dvd (Nat.pow_dvd_pow 2 hsh) n) hfin⟩

/-- The exponent of `unitScale` under a variable, so that the power is not written out. -/
theorem exists_unitScale_eq_two_pow : ∃ k ≤ 2044, unitScale = 2 ^ k :=
  ⟨1074, by decide, by unfold unitScale; exact Eq.refl _⟩

theorem roundMag_mul_unitScale {n : Nat} (hn : n < 2 ^ 53) :
    roundMag (n * unitScale) 1 < infBits ∧ magBits (roundMag (n * unitScale) 1) = n * unitScale := by
  obtain ⟨k, hk, hscale⟩ := exists_unitScale_eq_two_pow
  rw [hscale]
  exact roundMag_mul_two_pow hn hk

theorem isFinite_i2f {n : Nat} (h : n < 2 ^ 53) : isFinite (i2f n) = true :=
  isFinite_pack false (roundMag_mul_unitScale h).1

theorem val_i2f {n : Nat} (h : n < 2 ^ 53) : val (i2f n) = n := by
  rw [i2f, val_pack_false (roundMag_lt _ _), (roundMag_mul_unitScale h).2, Nat.cast_mul,
    mul_div_cancel_right₀ _ unitScale_ne_zero]

/-- Settles O29: an integer of at most 53 bits is a whole number of the spacings at its magnitude. -/
theorem integerConversionIsExact : Obligations.IntegerConversionIsExact := by
  unfold Obligations.IntegerConversionIsExact
  intro n hn
  have h53 : n < 2 ^ 53 := lt_trans hn (by decide)
  exact ⟨isFinite_i2f h53, val_i2f h53⟩

/-! ### Nearest values and the constants (R11) -/

theorem units_eq_magBits {r : Real64} (h : r.toNat < 2 ^ 63) : units r = magBits r.toNat := by
  rw [units_of_pos ((fSign_eq_false_iff r).mpr h), mag_eq_magBits, Nat.mod_eq_of_lt h]

/-- Among patterns without the sign bit the values grow with the bits. -/
theorem val_le_val_of_toNat_le {a b : Real64} (hab : a.toNat ≤ b.toNat) (hb : b.toNat < 2 ^ 63) : val a ≤ val b := by
  rw [val_le_val_iff, units_eq_magBits (lt_of_le_of_lt hab hb), units_eq_magBits hb, Int.ofNat_le]
  exact magBits_strictMono.monotone hab

theorem val_nonneg {r : Real64} (h : r.toNat < 2 ^ 63) : 0 ≤ val r := by
  rw [val_nonneg_iff, units_of_pos ((fSign_eq_false_iff r).mpr h)]
  exact Int.natCast_nonneg _

theorem val_nonpos {r : Real64} (h : 2 ^ 63 ≤ r.toNat) : val r ≤ 0 := by
  have hs : fSign r = true := by
    rw [← Bool.not_eq_false, fSign_eq_false_iff]
    omega
  rw [val_nonpos_iff, units_of_neg hs]
  omega

/-- No value lies strictly between those of neighbouring patterns `r` and `r + 1`. -/
theorem val_le_or_le_of_succ {r r' : Real64} (hs : r'.toNat = r.toNat + 1) (hr : r'.toNat < 2 ^ 63) (c : Real64) :
    val c ≤ val r ∨ val r' ≤ val c := by
  rcases Nat.lt_or_ge c.toNat (2 ^ 63) with hc | hc
  · rcases Nat.lt_or_ge r.toNat c.toNat with hrc | hrc
    · exact Or.inr (val_le_val_of_toNat_le (by omega) hc)
    · exact Or.inl (val_le_val_of_toNat_le hrc (by omega))
  · exact Or.inl ((val_nonpos hc).trans (val_nonneg (by omega)))

/-- A number between the midpoints around `r` has no value nearer to it than that of `r`. -/
theorem abs_val_sub_le_of_midpoints {lo r hi : Real64} {x : ℚ} (hlo : r.toNat = lo.toNat + 1)
    (hhi : hi.toNat = r.toNat + 1) (hpos : hi.toNat < 2 ^ 63) (hx : val lo + val r ≤ 2 * x)
    (hx' : 2 * x ≤ val r + val hi) (c : Real64) : |val r - x| ≤ |val c - x| := by
  have below := val_le_or_le_of_succ hlo (by omega) c
  have above := val_le_or_le_of_succ hhi hpos c
  have hlor := val_le_val_of_toNat_le (show lo.toNat ≤ r.toNat by omega) (by omega)
  have hrhi := val_le_val_of_toNat_le (show r.toNat ≤ hi.toNat by omega) hpos
  rcases below with hclo | hrc
  · calc |val r - x| ≤ x - val lo := abs_sub_le_iff.mpr ⟨by linarith, by linarith⟩
      _ ≤ -(val c - x) := by linarith
      _ ≤ |val c - x| := neg_le_abs _
  · rcases above with hcr | hhic
    · rw [le_antisymm hcr hrc]
    · calc |val r - x| ≤ val hi - x := abs_sub_le_iff.mpr ⟨by linarith, by linarith⟩
        _ ≤ val c - x := by linarith
        _ ≤ |val c - x| := le_abs_self _

/-- The ends of the setters' domains that are exact (R11). -/
theorem val_exact_domain_ends :
    val cTLo = -50 ∧ val cZero = 0 ∧ val cHHi = 100 ∧ val cGHi = 3 ∧ val cPLo = -180 ∧ val cPHi = 180 := by
  decide +kernel

/-- The factors and offsets of the transforms that are exact (R11). -/
theorem val_exact_factors :
    val c50 = 50 ∧ val c5 = 5 ∧ val c100 = 100 ∧ val c127 = 127 ∧ val c180 = 180 ∧ val c10000 = 10000 := by
  decide +kernel

/-- The two constants whose literals no pattern spells (R11). -/
theorem val_inexact_constants : val cTHi = 2721511181071155 / 2 ^ 44 ∧ val cGas = 750588209771053 / 2 ^ 44 := by
  decide +kernel

theorem cTHi_nearest (c : Real64) : |val cTHi - 1547 / 10| ≤ |val c - 1547 / 10| :=
  abs_val_sub_le_of_midpoints (lo := cTHi - 1) (hi := cTHi + 1) (by decide) (by decide) (by decide)
    (by decide +kernel) (by decide +kernel) c

theorem cGas_nearest (c : Real64) : |val cGas - 42666 / 1000| ≤ |val c - 42666 / 1000| :=
  abs_val_sub_le_of_midpoints (lo := cGas - 1) (hi := cGas + 1) (by decide) (by decide) (by decide)
    (by decide +kernel) (by decide +kernel) c

/-- Settles O30: the table's values are computed from the patterns, and the two literals lie between the midpoints
around their constants. -/
theorem constantsAreTheNearestReals : Obligations.ConstantsAreTheNearestReals := by
  unfold Obligations.ConstantsAreTheNearestReals
  exact ⟨val_exact_domain_ends, val_exact_factors, val_inexact_constants, fun c _ => cTHi_nearest c,
    fun c _ => cGas_nearest c⟩

end Sys2Proof.Proofs
end

section
/-! PROOF. The state after reset (`10_state.md` R28): the bytes and fields of the all-zero payload, and the values that
raw 0 decodes to. -/

namespace Sys2Proof.Proofs

open Sys2Proof.Machine

/-! ### The all-zero payload -/

@[simp] theorem payByte_zero (i : Fin 10) : payByte 0 i = 0 := BitVec.extractLsb'_zero

@[simp] theorem readField_zero (f : PayField) : readField 0 f = 0 := congrArg BitVec.toNat BitVec.extractLsb'_zero

@[simp] theorem raw_reset (f : PayField) : State.reset.raw f = 0 := readField_zero f

/-! ### Operations on the zero pattern (R7) -/

@[simp] theorem roundMag_zero (den : Nat) : roundMag 0 den = 0 := by simp [roundMag, roundHalfEven]

@[simp] theorem i2f_zero : i2f 0 = cZero := by
  rw [i2f, Nat.zero_mul, roundMag_zero]
  rfl

theorem isFinite_cZero : isFinite cZero = true := by decide

theorem fSign_cZero : fSign cZero = false := by decide

theorem mag_cZero : mag cZero = 0 := mag_subnormal (by decide)

theorem units_cZero : units cZero = 0 := by rw [units_of_pos fSign_cZero, mag_cZero, Nat.cast_zero]

theorem mag_pos_of_normal {r : Real64} (h : fExp r ≠ 0) : 0 < mag r := by
  rw [mag_normal h]
  positivity

/-- A magnitude below the topmost binade is rounded to its own exponent and fraction bits. -/
theorem roundMag_mag {r : Real64} (h : fExp r ≤ 2045) : roundMag (mag r) 1 = r.toNat % 2 ^ 63 := by
  have hf := fFrac_lt r
  obtain ⟨n, k, hn, hk, hm⟩ : ∃ n k, n < 2 ^ 53 ∧ k ≤ 2044 ∧ mag r = n * 2 ^ k := by
    rcases eq_or_ne (fExp r) 0 with h0 | h0
    · exact ⟨fFrac r, 0, by omega, by omega, by rw [mag_subnormal h0, Nat.pow_zero, Nat.mul_one]⟩
    · exact ⟨2 ^ 52 + fFrac r, fExp r - 1, by omega, by omega, mag_normal h0⟩
  apply magBits_strictMono.injective
  rw [← mag_eq_magBits, hm, (roundMag_mul_two_pow hn hk).2]

section
variable {b : Real64} (hb : isFinite b = true) (hs : fSign b = false)
include hb hs

/-- +0 times a number without the sign bit is +0. -/
theorem cZero_fmul : fmul cZero b = cZero := by
  rw [fmul_finite isFinite_cZero hb, fSign_cZero, hs, mag_cZero, Nat.zero_mul, roundMag_zero]
  rfl

/-- +0 divided by a positive normal number is +0. -/
theorem cZero_fdiv (h0 : fExp b ≠ 0) : fdiv cZero b = cZero := by
  rw [fdiv_finite isFinite_cZero hb (mag_pos_of_normal h0).ne', fSign_cZero, hs, mag_cZero, Nat.zero_mul,
    roundMag_zero]
  rfl

/-- +0 minus a positive normal number below the topmost binade is that number with the sign bit set. -/
theorem cZero_fsub (h0 : fExp b ≠ 0) (h : fExp b ≤ 2045) : fsub cZero b = pack true (b.toNat % 2 ^ 63) := by
  have hneg : -(mag b : Int) < 0 := by
    have := mag_pos_of_normal h0
    omega
  rw [fsub_finite isFinite_cZero hb, units_cZero, units_of_pos hs, roundSum, zero_add, if_neg hneg.ne,
    decide_eq_true hneg, Int.natAbs_neg, Int.natAbs_natCast, roundMag_mag h]

end

/-! ### What raw 0 decodes to (`30_encoding.md` R50 to R54) -/

theorem decTemp_zero : decTemp 0 = cTLo := by
  rw [decTemp, i2f_zero, cZero_fdiv (by decide) (by decide) (by decide),
    cZero_fsub (by decide) (by decide) (by decide) (by decide)]
  decide

theorem decHum_zero : decHum 0 = cZero := by
  rw [decHum, i2f_zero, cZero_fdiv (by decide) (by decide) (by decide), cZero_fmul (by decide) (by decide)]

theorem decGas_zero : decGas 0 = cZero := by
  rw [decGas, i2f_zero, cZero_fdiv (by decide) (by decide) (by decide)]

theorem decGps_zero : decGps 0 = cPLo := by
  rw [decGps, i2f_zero, cZero_fdiv (by decide) (by decide) (by decide),
    cZero_fsub (by decide) (by decide) (by decide) (by decide)]
  decide

/-- Settles O14: the bytes and fields of the zero payload are zero; in the decoders zero stays zero through the
quotients and the product, and a difference is its offset with the sign bit set. -/
theorem resetStateIsAllZero : Obligations.ResetStateIsAllZero := by
  unfold Obligations.ResetStateIsAllZero
  exact ⟨payByte_zero, rfl, rfl, raw_reset, rfl, rfl, decTemp_zero, decHum_zero, decGas_zero, decGps_zero⟩

end Sys2Proof.Proofs
end

section
/-! PROOF. Fields and bytes of the payload (`20_memory.md` R35, R36): a field's raw value put together from slices of
bytes, and an insert as a read-modify-write of each byte. -/

namespace Sys2Proof.Proofs

open Sys2Proof.Machine Sys2Proof.Claims

/-! ### Slices of the payload (`20_memory.md` R35) -/

/-- A slice of PAYV is a quotient and a remainder of its number. -/
theorem extractBits_eq_div_mod (pay : PayVec) (p w : Nat) :
    extractBits pay p w = pay.toNat / 2 ^ (80 - p - w) % 2 ^ w := by
  rw [extractBits, BitVec.extractLsb'_toNat, Nat.shiftRight_eq_div_pow]

/-- Byte i is the slice of eight bits at wire position 8i (R34). -/
theorem toNat_payByte (pay : PayVec) (i : Fin 10) : (payByte pay i).toNat = extractBits pay (8 * i) 8 := by
  rw [payByte, extractBits, show 80 - 8 * i.val - 8 = 72 - 8 * i.val by omega]

/-- Shifting the last v bits out of a slice leaves its first w. -/
theorem extractBits_shiftRight (pay : PayVec) (p w v : Nat) (h : p + w + v ≤ 80) :
    extractBits pay p (w + v) >>> v = extractBits pay p w := by
  apply Nat.eq_of_testBit_eq
  intro k
  rw [Nat.testBit_shiftRight, testBit_extractBits, testBit_extractBits,
    show 80 - p - (w + v) + (v + k) = 80 - p - w + k by omega]
  simp [Nat.add_comm v k]

/-- Masking a slice leaves its last v bits. -/
theorem extractBits_and_mask (pay : PayVec) (p w v : Nat) :
    extractBits pay p (w + v) &&& (2 ^ v - 1) = extractBits pay (p + w) v := by
  apply Nat.eq_of_testBit_eq
  intro k
  rw [Nat.testBit_and, Nat.testBit_two_pow_sub_one, testBit_extractBits, testBit_extractBits,
    show 80 - p - (w + v) = 80 - (p + w) - v by omega]
  by_cases hk : k < v
  · have hw : k < w + v := by omega
    simp [hk, hw]
  · simp [hk]

/-- A slice is its first w bits, shifted, and its last v. -/
theorem extractBits_add (pay : PayVec) (p w v : Nat) (h : p + w + v ≤ 80) :
    extractBits pay p (w + v) = extractBits pay p w <<< v ||| extractBits pay (p + w) v := by
  rw [← extractBits_shiftRight pay p w v h, ← extractBits_and_mask, Nat.and_two_pow_sub_one_eq_mod,
    Nat.shiftLeft_eq, Nat.shiftRight_eq_div_pow, Nat.mul_comm,
    ← Nat.two_pow_add_eq_or_of_lt (Nat.mod_lt _ (Nat.two_pow_pos v)), Nat.div_add_mod]

/-- A slice of 24 bits from its three bytes. -/
theorem extractBits_three_bytes (pay : PayVec) {p : Nat} (h : p + 24 ≤ 80) :
    extractBits pay p 24 =
      extractBits pay p 8 <<< 16 ||| extractBits pay (p + 8) 8 <<< 8 ||| extractBits pay (p + 16) 8 := by
  rw [extractBits_add pay p 16 8 (by omega), extractBits_add pay p 8 8 (by omega),
    Nat.shiftLeft_or_distrib, ← Nat.shiftLeft_add]

/-- Settles O21: byte i is the slice of eight bits at wire position 8i, and each formula cuts such slices by shifts and
masks and joins the parts. -/
theorem extractByBytes : Obligations.ExtractByBytes := by
  unfold Obligations.ExtractByBytes
  refine ⟨fun pay f => extractBits_eq_div_mod pay f.pos f.width, fun pay b hb => ?_⟩
  simp only [hb, toNat_payByte]
  have hver : extractBits pay 0 8 >>> 4 = extractBits pay 0 4 := extractBits_shiftRight pay 0 4 4 (by decide)
  have hbat : extractBits pay 0 8 >>> 3 &&& 1 = extractBits pay 4 1 := by
    rw [extractBits_shiftRight pay 0 5 3 (by decide)]
    exact extractBits_and_mask pay 0 4 1
  have hrsv : extractBits pay 0 8 &&& 7 = extractBits pay 5 3 := extractBits_and_mask pay 0 5 3
  have htemp : extractBits pay 8 8 <<< 2 ||| extractBits pay 16 8 >>> 6 = extractBits pay 8 10 := by
    rw [extractBits_shiftRight pay 16 2 6 (by decide)]
    exact (extractBits_add pay 8 8 2 (by decide)).symm
  have hhum : (extractBits pay 16 8 &&& 0x3F) <<< 1 ||| extractBits pay 24 8 >>> 7 = extractBits pay 18 7 := by
    have hfirst : extractBits pay 16 8 &&& 0x3F = extractBits pay 18 6 := extractBits_and_mask pay 16 2 6
    rw [hfirst, extractBits_shiftRight pay 24 1 7 (by decide)]
    exact (extractBits_add pay 18 6 1 (by decide)).symm
  have hgas : extractBits pay 24 8 &&& 0x7F = extractBits pay 25 7 := extractBits_and_mask pay 24 1 7
  exact ⟨hver.symm, hbat.symm, hrsv.symm, htemp.symm, hhum.symm, hgas.symm,
    extractBits_three_bytes pay (by decide), extractBits_three_bytes pay (by decide)⟩

/-! ### What an insert does to a byte (R36) -/

/-- A byte that holds no bit of the field is kept. -/
theorem payByte_writeField_kept (pay : PayVec) {f : PayField} {v : Nat} {bytes : List (Fin 10)}
    (h : ∀ i, i ∉ bytes → 8 * i.val + 8 ≤ f.pos ∨ f.pos + f.width ≤ 8 * i.val) (i : Fin 10) (hi : i ∉ bytes) :
    payByte (writeField pay f v) i = payByte pay i := by
  have hout := h i hi
  apply BitVec.eq_of_getLsbD_eq
  intro j hj
  rw [getLsbD_payByte, getLsbD_payByte, getLsbD_writeField, if_neg (by omega)]

/-- The read-modify-write of one byte: the field's bits that fall into byte i are those of the all-ones value shifted
there, and each of them takes the bit of v shifted the same way. -/
theorem payByte_writeField (pay : PayVec) {f : PayField} {v : Nat} (hv : v < 2 ^ f.width) (i : Fin 10) :
    payByte (writeField pay f v) i =
      (payByte pay i &&& ~~~BitVec.ofNat 8 ((2 ^ f.width - 1) <<< (8 * i.val + 8) >>> (f.pos + f.width))) |||
        BitVec.ofNat 8 (v <<< (8 * i.val + 8) >>> (f.pos + f.width)) := by
  have hend := field_end_le f
  apply BitVec.eq_of_getLsbD_eq
  intro j hj
  simp only [BitVec.getLsbD_or, BitVec.getLsbD_and, BitVec.getLsbD_not, BitVec.getLsbD_ofNat, getLsbD_payByte,
    getLsbD_writeField, Nat.testBit_shiftRight, Nat.testBit_shiftLeft, Nat.testBit_two_pow_sub_one, hj]
  generalize hk : f.pos + f.width + j - (8 * i.val + 8) = k
  by_cases hlow : f.pos + f.width + j < 8 * i.val + 8
  · have h1 : ¬ 8 * i.val + 8 ≤ f.pos + f.width + j := by omega
    rw [if_neg (by omega)]
    simp [h1]
  · have h1 : 8 * i.val + 8 ≤ f.pos + f.width + j := by omega
    by_cases hw : k < f.width
    · rw [if_pos (by omega), show 72 - 8 * i.val + j - (80 - f.pos - f.width) = k by omega]
      simp [h1, hw]
    · have hz : v.testBit k = false :=
        Nat.testBit_lt_two_pow (hv.trans_le (Nat.pow_le_pow_right (by decide) (by omega)))
      rw [if_neg (by omega)]
      simp [h1, hw, hz]

/-- The byte in which the field ends, d bits above the byte's end. -/
theorem payByte_writeField_low (pay : PayVec) {f : PayField} {v d : Nat} {i : Fin 10} (hv : v < 2 ^ f.width)
    (hd : f.pos + f.width + d = 8 * i.val + 8) :
    payByte (writeField pay f v) i =
      (payByte pay i &&& ~~~BitVec.ofNat 8 ((2 ^ f.width - 1) <<< d)) ||| BitVec.ofNat 8 (v <<< d) := by
  have hshift (n : Nat) : n <<< (8 * i.val + 8) >>> (f.pos + f.width) = n <<< d := by
    rw [← hd, Nat.add_comm, Nat.shiftLeft_add, Nat.shiftLeft_shiftRight]
  rw [payByte_writeField pay hv i, hshift, hshift]

/-- A byte above the field's last e bits. -/
theorem payByte_writeField_high (pay : PayVec) {f : PayField} {v e : Nat} {i : Fin 10} (hv : v < 2 ^ f.width)
    (he : f.pos + f.width = 8 * i.val + 8 + e) :
    payByte (writeField pay f v) i =
      (payByte pay i &&& ~~~BitVec.ofNat 8 ((2 ^ f.width - 1) >>> e)) ||| BitVec.ofNat 8 (v >>> e) := by
  have hshift (n : Nat) : n <<< (8 * i.val + 8) >>> (f.pos + f.width) = n >>> e := by
    rw [he, Nat.shiftRight_add, Nat.shiftLeft_shiftRight]
  rw [payByte_writeField pay hv i, hshift, hshift]

/-- A byte all of whose bits belong to the field, above the field's last e bits: nothing of it is kept. -/
theorem payByte_writeField_inside (pay : PayVec) {f : PayField} {v e : Nat} {i : Fin 10} (hp : f.pos ≤ 8 * i.val)
    (he : f.pos + f.width = 8 * i.val + 8 + e) :
    payByte (writeField pay f v) i = BitVec.ofNat 8 (v >>> e) := by
  have hend := field_end_le f
  apply BitVec.eq_of_getLsbD_eq
  intro j hj
  rw [getLsbD_payByte, getLsbD_writeField, if_pos (by omega), BitVec.getLsbD_ofNat, Nat.testBit_shiftRight,
    show 72 - 8 * i.val + j - (80 - f.pos - f.width) = e + j by omega]

/-- Bits of v that are shifted out of the byte may be masked off first. -/
theorem byte_shiftLeft_and_mask (v : Nat) {k d : Nat} (h : 8 ≤ k + d) :
    BitVec.ofNat 8 ((v &&& (2 ^ k - 1)) <<< d) = BitVec.ofNat 8 (v <<< d) := by
  apply BitVec.eq_of_getLsbD_eq
  intro j hj
  by_cases hd : d ≤ j
  · have hk : j - d < k := by omega
    simp [BitVec.getLsbD_ofNat, hd, hk]
  · simp [BitVec.getLsbD_ofNat, hd]

/-- The three bytes of a 24-bit field that starts with byte i (latitude and longitude). -/
theorem payByte_writeField_three_bytes (pay : PayVec) {f : PayField} (v : Nat) {i j k : Fin 10} (hw : f.width = 24)
    (hi : f.pos = 8 * i.val) (hj : j.val = i.val + 1) (hk : k.val = i.val + 2) :
    payByte (writeField pay f v) i = BitVec.ofNat 8 (v >>> 16) ∧
      payByte (writeField pay f v) j = BitVec.ofNat 8 ((v >>> 8) &&& 0xFF) ∧
      payByte (writeField pay f v) k = BitVec.ofNat 8 (v &&& 0xFF) :=
  ⟨payByte_writeField_inside pay (by omega) (by omega),
    (payByte_writeField_inside pay (by omega) (by omega)).trans
      (byte_shiftLeft_and_mask (v >>> 8) (k := 8) (d := 0) (by decide)).symm,
    (payByte_writeField_inside pay (e := 0) (by omega) (by omega)).trans
      (byte_shiftLeft_and_mask v (k := 8) (d := 0) (by decide)).symm⟩

/-- Settles O22: each byte named by the mask table is the field's low end, above it, or all inside the field; every
other byte holds no bit of the field. -/
theorem insertByBytes : Obligations.InsertByBytes := by
  unfold Obligations.InsertByBytes
  intro pay v old hOld
  have hmask2 : BitVec.ofNat 8 ((v &&& 3) <<< 6) = BitVec.ofNat 8 (v <<< 6) :=
    byte_shiftLeft_and_mask v (k := 2) (by decide)
  have hmask1 : BitVec.ofNat 8 ((v &&& 1) <<< 7) = BitVec.ofNat 8 (v <<< 7) :=
    byte_shiftLeft_and_mask v (k := 1) (by decide)
  simp only [hOld, After, hmask2, hmask1]
  refine ⟨fun hv => ?ver, fun hv => ?bat, fun hv => ?temp, fun hv => ?hum, fun hv => ?gas, fun _ => ?lat,
    fun _ => ?lon⟩
  case ver =>
    exact ⟨payByte_writeField_low (d := 4) pay hv (by decide), payByte_writeField_kept pay (by decide)⟩
  case bat =>
    exact ⟨payByte_writeField_low (d := 3) pay hv (by decide), payByte_writeField_kept pay (by decide)⟩
  case temp =>
    exact ⟨payByte_writeField_inside (e := 2) pay (by decide) (by decide),
      payByte_writeField_low (d := 6) pay hv (by decide), payByte_writeField_kept pay (by decide)⟩
  case hum =>
    exact ⟨payByte_writeField_high (e := 1) pay hv (by decide),
      payByte_writeField_low (d := 7) pay hv (by decide), payByte_writeField_kept pay (by decide)⟩
  case gas =>
    exact ⟨payByte_writeField_low (d := 0) pay hv (by decide), payByte_writeField_kept pay (by decide)⟩
  case lat =>
    obtain ⟨h4, h5, h6⟩ := payByte_writeField_three_bytes pay (f := .lat) v (i := 4) (j := 5) (k := 6) rfl rfl rfl rfl
    exact ⟨h4, h5, h6, payByte_writeField_kept pay (by decide)⟩
  case lon =>
    obtain ⟨h7, h8, h9⟩ := payByte_writeField_three_bytes pay (f := .lon) v (i := 7) (j := 8) (k := 9) rfl rfl rfl rfl
    exact ⟨h7, h8, h9, payByte_writeField_kept pay (by decide)⟩

end Sys2Proof.Proofs
end

section
/-! PROOF. The commands that only read (`20_memory.md` R40): each answers with a function of PAY alone. -/

namespace Sys2Proof.Proofs

open Sys2Proof.Machine

/-- A reading command answers with a function of PAY alone and does nothing else. -/
theorem exec_of_isRead {i : Instr} (h : i.isRead = true) :
    ∃ answer : PayVec → RspWord, ∀ s, exec i s = command s (s.respond (answer s.pay)) := by
  cases i with
  | eq buf => exact ⟨fun pay => rspWord (if pay = buf then 1 else 0) 0, fun _ => rfl⟩
  | getver => exact ⟨fun pay => rspWord (BitVec.ofNat 64 (decVer (readField pay .ver))) 0, fun _ => rfl⟩
  | getbat => exact ⟨fun pay => rspWord (BitVec.ofNat 64 (readField pay .bat)) 0, fun _ => rfl⟩
  | gettemp => exact ⟨fun pay => rspWord (decTemp (readField pay .temp)) 0, fun _ => rfl⟩
  | gethum => exact ⟨fun pay => rspWord (decHum (readField pay .hum)) 0, fun _ => rfl⟩
  | getgas => exact ⟨fun pay => rspWord (decGas (readField pay .gas)) 0, fun _ => rfl⟩
  | getgps => exact ⟨fun pay => rspWord (decGps (readField pay .lat)) (decGps (readField pay .lon)), fun _ => rfl⟩
  | view => exact ⟨rspView, fun _ => rfl⟩
  | clr | load | setver | settemp | sethum | setgas | setgps | setbat => cases h

/-- Settles O51: the first command changes the response only, and the second answers from PAY, which is as before. -/
theorem readsHaveNoSideEffect : Obligations.ReadsHaveNoSideEffect := by
  unfold Obligations.ReadsHaveNoSideEffect
  intro i j s t u hi hj ht hu
  obtain ⟨answer₁, hexec₁⟩ := exec_of_isRead hi
  obtain ⟨answer₂, hexec₂⟩ := exec_of_isRead hj
  rw [hexec₁] at ht
  rw [hexec₂] at hu
  obtain ⟨hfault, rfl⟩ := command_next ht
  obtain ⟨-, rfl⟩ := command_next hu
  exact ⟨rfl, rfl, (hexec₂ _).trans (command_operating hfault)⟩

end Sys2Proof.Proofs
end

section
/-! PROOF. Command words (`30_encoding.md` Part B). The decoder is said once as a table, `OpcodeRow`: opcode and command
of each row of R62. The statements about words follow from that table, from the fields of a word and from the masks of
the operand kinds of R58. -/

namespace Sys2Proof.Proofs

/-! ### Words and their fields (`30_encoding.md` R57) -/

/-- A word is put together from its three fields. -/
theorem cmdWord_fields (w : CmdWord) : cmdWord (cmdOp w) (cmdA w) (cmdB w) = w := by
  have hop : cmdOp w ++ cmdA w = w.extractLsb' 64 68 := BitVec.extractLsb'_append_extractLsb'_eq_extractLsb' rfl
  rw [cmdWord, hop]
  exact (BitVec.extractLsb'_append_extractLsb'_eq_extractLsb' rfl).trans BitVec.extractLsb'_eq_self

/-- A word is its opcode, its buffer operand and the 48 bits below. -/
theorem bufOperand_fields (w : CmdWord) : cmdOp w ++ bufOperand w ++ w.extractLsb' 0 48 = w := by
  have hop : cmdOp w ++ bufOperand w = w.extractLsb' 48 84 := by
    rw [bufOperand_eq]
    exact BitVec.extractLsb'_append_extractLsb'_eq_extractLsb' rfl
  rw [hop]
  exact (BitVec.extractLsb'_append_extractLsb'_eq_extractLsb' rfl).trans BitVec.extractLsb'_eq_self

/-- The mask of the low k bits of an operand field keeps the slice they spell. -/
theorem and_setWidth_allOnes (a : BitVec 64) (k : Nat) :
    a &&& (BitVec.allOnes k).setWidth 64 = (a.extractLsb' 0 k).setWidth 64 := by
  apply BitVec.eq_of_getLsbD_eq
  intro j hj
  simp [hj, Bool.and_comm]

section
variable {w : CmdWord} {op : BitVec 4} (hop : cmdOp w = op)
include hop

/-- A mask that is ones at the opcode keeps the opcode and masks the two operand fields. -/
theorem and_cmdWord (a b : BitVec 64) : w &&& cmdWord 0xF#4 a b = cmdWord op (cmdA w &&& a) (cmdB w &&& b) := by
  have hones : cmdOp w &&& 0xF#4 = op := BitVec.and_allOnes.trans hop
  calc w &&& cmdWord 0xF#4 a b
      = cmdWord (cmdOp w) (cmdA w) (cmdB w) &&& cmdWord 0xF#4 a b := by rw [cmdWord_fields]
    _ = ((cmdOp w ++ cmdA w) &&& (0xF#4 ++ a)) ++ (cmdB w &&& b) := BitVec.and_append
    _ = cmdWord op (cmdA w &&& a) (cmdB w &&& b) := by rw [BitVec.and_append, hones, cmdWord]

/-! ### The masks of the operand kinds (`30_encoding.md` R58) -/

theorem and_mask_none : w &&& opcodeMask = cmdWord op 0#64 0#64 := by
  rw [show opcodeMask = cmdWord 0xF#4 0#64 0#64 by rfl, and_cmdWord hop, BitVec.and_zero, BitVec.and_zero]

theorem and_mask_real : w &&& 0xFFFFFFFFFFFFFFFFF0000000000000000#132 = cmdWord op (cmdA w) 0#64 := by
  rw [show 0xFFFFFFFFFFFFFFFFF0000000000000000#132 = cmdWord 0xF#4 (BitVec.allOnes 64) 0#64 by rfl,
    and_cmdWord hop, BitVec.and_allOnes, BitVec.and_zero]

theorem and_mask_two_reals : w &&& 0xFFFFFFFFFFFFFFFFFFFFFFFFFFFFFFFFF#132 = cmdWord op (cmdA w) (cmdB w) := by
  rw [← hop, cmdWord_fields]
  exact BitVec.and_allOnes

theorem and_mask_buffer : w &&& 0xFFFFFFFFFFFFFFFFFFFFF000000000000#132 = bufWord op (bufOperand w) := by
  conv_lhs => rw [← bufOperand_fields w]
  rw [show 0xFFFFFFFFFFFFFFFFFFFFF000000000000#132 = BitVec.allOnes 4 ++ BitVec.allOnes 80 ++ 0#48 by rfl,
    BitVec.and_append, BitVec.and_append, BitVec.and_allOnes, BitVec.and_allOnes, BitVec.and_zero, bufWord, hop]

theorem and_mask_int : w &&& 0xF00000000FFFFFFFF0000000000000000#132 =
    cmdWord op ((BitVec.ofInt 32 (intOperand w)).setWidth 64) 0#64 := by
  rw [show 0xF00000000FFFFFFFF0000000000000000#132 = cmdWord 0xF#4 ((BitVec.allOnes 32).setWidth 64) 0#64 by rfl,
    and_cmdWord hop, intOperand, BitVec.ofInt_toInt, and_setWidth_allOnes, BitVec.and_zero]

theorem and_mask_bool : w &&& 0xF00000000000000010000000000000000#132 =
    cmdWord op ((BitVec.ofBool (boolOperand w)).setWidth 64) 0#64 := by
  have hbit : BitVec.ofBool ((cmdA w).getLsbD 0) = (cmdA w).extractLsb' 0 1 := by
    apply BitVec.eq_of_getLsbD_eq
    intro j hj
    obtain rfl : j = 0 := by omega
    simp
  rw [show 0xF00000000000000010000000000000000#132 = cmdWord 0xF#4 ((BitVec.allOnes 1).setWidth 64) 0#64 by rfl,
    and_cmdWord hop, boolOperand, hbit, and_setWidth_allOnes, BitVec.and_zero]

end

/-! ### The decoder as a table (`30_encoding.md` R62) -/

/-- The rows of R62, each with the operand R58 gives it: the opcode, and the command that `w` spells under it. -/
inductive OpcodeRow (w : CmdWord) : BitVec 4 → Instr → Prop
  | clr : OpcodeRow w 0x0#4 .clr
  | load : OpcodeRow w 0x1#4 (.load (bufOperand w))
  | eq : OpcodeRow w 0x2#4 (.eq (bufOperand w))
  | setver : OpcodeRow w 0x3#4 (.setver (intOperand w))
  | settemp : OpcodeRow w 0x4#4 (.settemp (cmdA w))
  | sethum : OpcodeRow w 0x5#4 (.sethum (cmdA w))
  | setgas : OpcodeRow w 0x6#4 (.setgas (cmdA w))
  | setgps : OpcodeRow w 0x7#4 (.setgps (cmdA w) (cmdB w))
  | setbat : OpcodeRow w 0x8#4 (.setbat (boolOperand w))
  | getver : OpcodeRow w 0x9#4 .getver
  | getbat : OpcodeRow w 0xA#4 .getbat
  | gettemp : OpcodeRow w 0xB#4 .gettemp
  | gethum : OpcodeRow w 0xC#4 .gethum
  | getgas : OpcodeRow w 0xD#4 .getgas
  | getgps : OpcodeRow w 0xE#4 .getgps
  | view : OpcodeRow w 0xF#4 .view

/-- The decoder answers with the row of the word's own opcode; its last arm takes the one opcode left, 0xF. -/
theorem opcodeRow_decode (w : CmdWord) : OpcodeRow w (cmdOp w) (decode w) := by
  unfold decode
  split
  case h_16 =>
    have hop : cmdOp w = 0xF#4 := by
      simp only [imp_false] at *
      bv_omega
    exact hop ▸ .view
  all_goals
    next hop => rw [hop]; constructor

theorem OpcodeRow.opcode_eq {w : CmdWord} {op : BitVec 4} {i : Instr} (h : OpcodeRow w op i) : i.opcode = op := by
  cases h <;> rfl

theorem opcode_decode (w : CmdWord) : (decode w).opcode = cmdOp w := (opcodeRow_decode w).opcode_eq

theorem intOperandFits_intOperand (w : CmdWord) : intOperandFits (intOperand w) = true := by
  have hlo := BitVec.le_toInt ((cmdA w).extractLsb' 0 32)
  have hhi := BitVec.toInt_lt (x := (cmdA w).extractLsb' 0 32)
  simp only [intOperandFits, Bool.and_eq_true, decide_eq_true_eq]
  exact ⟨hlo, hhi⟩

theorem OpcodeRow.wf {w : CmdWord} {op : BitVec 4} {i : Instr} (h : OpcodeRow w op i) : i.wf = true := by
  cases h with
  | setver => exact intOperandFits_intOperand w
  | _ => rfl

/-! ### Encoding after decoding -/

/-- Each operand kind's mask keeps what the row's command spells back. -/
theorem OpcodeRow.encode_eq {w : CmdWord} {op : BitVec 4} {i : Instr} (h : OpcodeRow w op i) (hop : cmdOp w = op) :
    encode i = w &&& usedBits op := by
  cases h with
  | load | eq => exact (and_mask_buffer hop).symm
  | setver => exact (and_mask_int hop).symm
  | settemp | sethum | setgas => exact (and_mask_real hop).symm
  | setgps => exact (and_mask_two_reals hop).symm
  | setbat => exact (and_mask_bool hop).symm
  | clr | getver | getbat | gettemp | gethum | getgas | getgps | view => exact (and_mask_none hop).symm

theorem encode_decode (w : CmdWord) : encode (decode w) = w &&& usedBits (cmdOp w) :=
  (opcodeRow_decode w).encode_eq rfl

/-- Settles O4: the row of the word's own opcode encodes to the word under that opcode's mask. -/
theorem encodeDecodeClearsIgnoredBits : Obligations.EncodeDecodeClearsIgnoredBits := by
  unfold Obligations.EncodeDecodeClearsIgnoredBits
  exact encode_decode

/-! ### Decoding after encoding -/

/-- SETVER's operand field spells the integer back where 32 bits of two's complement hold it. -/
theorem intOperand_cmdWord (op : BitVec 4) (b : BitVec 64) {n : Int} (h : intOperandFits n = true) :
    intOperand (cmdWord op ((BitVec.ofInt 32 n).setWidth 64) b) = n := by
  simp only [intOperandFits, Bool.and_eq_true, decide_eq_true_eq] at h
  obtain ⟨hlo, hhi⟩ := h
  rw [intOperand, cmdA_cmdWord, ← BitVec.setWidth_eq_extractLsb' (by omega),
    BitVec.setWidth_setWidth_of_le _ (by omega), BitVec.setWidth_eq]
  exact BitVec.toInt_ofInt_eq_self (by omega) hlo hhi

theorem boolOperand_cmdWord (op : BitVec 4) (v : Bool) (b : BitVec 64) :
    boolOperand (cmdWord op ((BitVec.ofBool v).setWidth 64) b) = v := by
  simp [boolOperand]

/-- Each operand field spells its operand back; SETVER's needs the integer to fit in 32 bits. -/
theorem decode_encode {i : Instr} (h : i.wf = true) : decode (encode i) = i := by
  cases i with
  | load | eq => simp [decode, encode, Instr.opcode]
  | setver => simp [decode, encode, Instr.opcode, intOperand_cmdWord _ _ h]
  | setbat => simp [decode, encode, Instr.opcode, boolOperand_cmdWord]
  | settemp | sethum | setgas | setgps | clr | getver | getbat | gettemp | gethum | getgas | getgps | view =>
    simp [decode, encode, Instr.opcode]

/-- Settles O1: the canonical word has the command's opcode, and each of its operand fields reads back as the operand
that was written into it. -/
theorem decodeEncodeRoundTrip : Obligations.DecodeEncodeRoundTrip := by
  unfold Obligations.DecodeEncodeRoundTrip
  exact fun _ => decode_encode

/-! ### Which words spell the same command, and in which row -/

/-- The opcode of a masked word is the opcode of the word. -/
theorem cmdOp_and_usedBits (w : CmdWord) (op : BitVec 4) : cmdOp (w &&& usedBits op) = cmdOp w := by
  have hones : cmdOp (usedBits op) = BitVec.allOnes 4 := by revert op; decide
  exact BitVec.extractLsb'_and.trans (by rw [← cmdOp, ← cmdOp, hones, BitVec.and_allOnes])

/-- Settles O2: equal commands encode to equal words, which are the masked ones (O4); and the masked words, being
canonical, decode to the commands of the words themselves (O1). -/
theorem exactlyTheUsedBitsMatter : Obligations.ExactlyTheUsedBitsMatter := by
  unfold Obligations.ExactlyTheUsedBitsMatter
  intro w w'
  constructor
  · intro h
    have hop : cmdOp w = cmdOp w' := by rw [← opcode_decode, h, opcode_decode]
    calc w &&& usedBits (cmdOp w) = encode (decode w) := (encode_decode w).symm
      _ = encode (decode w') := by rw [h]
      _ = w' &&& usedBits (cmdOp w) := by rw [hop, encode_decode]
  · intro h
    have hop : cmdOp w = cmdOp w' := by rw [← cmdOp_and_usedBits w, h, cmdOp_and_usedBits]
    have hword : encode (decode w) = encode (decode w') := by
      rw [encode_decode, encode_decode, h, hop]
    rw [← decode_encode (opcodeRow_decode w).wf, hword, decode_encode (opcodeRow_decode w').wf]

/-- The table has one row with a command's opcode, and it is the command's own. -/
theorem opcodeTable_filter_opcode (i : Instr) :
    (opcodeTable.filter fun r => cmdWord i.opcode 0#64 0#64 == r.2).map Prod.fst = [i.mnemonic] := by
  cases i <;> simp only [Instr.opcode, Instr.mnemonic] <;> rfl

/-- Settles O3: under the mask a word is its opcode, the opcode is that of the decoded command, and the table has that
command's row and no other with this opcode. -/
theorem everyWordSpellsExactlyOneCommand : Obligations.EveryWordSpellsExactlyOneCommand := by
  unfold Obligations.EveryWordSpellsExactlyOneCommand
  intro w
  rw [and_mask_none (opcode_decode w).symm]
  exact opcodeTable_filter_opcode (decode w)

end Sys2Proof.Proofs
end

section
/-! PROOF. The reserved field as storage (`30_encoding.md` R49), from what a field write leaves in each field
(`20_memory.md` R36). -/

namespace Sys2Proof.Proofs

open Sys2Proof.Machine

/-! ### What a field write leaves in each field (`20_memory.md` R33, R36) -/

theorem readField_writeField_same (pay : PayVec) {f : PayField} {v : Nat} (hv : v < 2 ^ f.width) :
    readField (writeField pay f v) f = v := by
  have hend := field_end_le f
  apply Nat.eq_of_testBit_eq
  intro k
  rw [testBit_readField, getLsbD_writeField]
  by_cases hk : k < f.width
  · rw [if_pos (by omega), Nat.add_sub_cancel_left]
    simp [hk]
  · have hpow : v < 2 ^ k := hv.trans_le (Nat.pow_le_pow_right two_pos (not_lt.mp hk))
    simp [hk, Nat.testBit_eq_false_of_lt hpow]

/-- Two different fields stand one before the other. -/
theorem fields_disjoint {f g : PayField} (h : f ≠ g) : f.pos + f.width ≤ g.pos ∨ g.pos + g.width ≤ f.pos := by
  revert h
  cases f <;> cases g <;> decide

theorem readField_writeField_ne (pay : PayVec) {f g : PayField} (v : Nat) (h : g ≠ f) :
    readField (writeField pay f v) g = readField pay g := by
  have hf := field_end_le f
  have hg := field_end_le g
  apply Nat.eq_of_testBit_eq
  intro k
  rw [testBit_readField, testBit_readField, getLsbD_writeField]
  by_cases hk : k < g.width
  · have hout : ¬ (80 - f.pos - f.width ≤ 80 - g.pos - g.width + k ∧ 80 - g.pos - g.width + k < 80 - f.pos) := by
      rcases fields_disjoint h with h | h <;> omega
    rw [if_neg hout]
  · simp [hk]

theorem mem_all_fields (f : PayField) : f ∈ PayField.all := by cases f <;> decide

/-- A command keeps the raw value of every field outside its list (`10_state.md` R20's table). -/
theorem raw_exec_of_notMem_writes {i : Instr} {s t : State} {f : PayField} (h : exec i s = .next t)
    (hf : f ∉ i.writes) : t.raw f = s.raw f := by
  obtain ⟨-, hnext⟩ := exec_next h
  rcases hnext with ⟨-, _, rfl⟩ | ⟨_, hi, -⟩ | ⟨_, rfl, -, rfl⟩ | ⟨_, rfl, -, rfl⟩ | ⟨_, rfl, -, rfl⟩ |
    ⟨_, rfl, -, rfl⟩ | ⟨_, _, rfl, -, -, rfl⟩ | ⟨_, rfl, rfl⟩ | ⟨_, rfl, -⟩
  · rfl
  · obtain ⟨rfl, -⟩ | rfl := hi <;> exact absurd (mem_all_fields f) hf
  · exact readField_writeField_ne _ _ (List.ne_of_not_mem_cons hf)
  · exact readField_writeField_ne _ _ (List.ne_of_not_mem_cons hf)
  · exact readField_writeField_ne _ _ (List.ne_of_not_mem_cons hf)
  · exact readField_writeField_ne _ _ (List.ne_of_not_mem_cons hf)
  · have hlat : f ≠ .lat := List.ne_of_not_mem_cons hf
    have hlon : f ≠ .lon := List.ne_of_not_mem_cons (List.not_mem_of_not_mem_cons hf)
    exact (readField_writeField_ne _ _ hlon).trans (readField_writeField_ne _ _ hlat)
  · exact readField_writeField_ne _ _ (List.ne_of_not_mem_cons hf)
  · rfl

/-! ### Each kind of command on the reserved field (`30_encoding.md` R49) -/

/-- CLR and LOAD alone write the reserved field. -/
theorem rsv_notMem_writes {i : Instr} (hclr : i ≠ .clr) (hload : i.isLoad = false) : PayField.rsv ∉ i.writes := by
  cases i with
  | clr => exact absurd rfl hclr
  | load => cases hload
  | _ => simp [Instr.writes]

/-- EQ answers 0 where a field of the operand differs from PAY's. -/
theorem execEq_of_field_ne {s : State} {buf : PayVec} (f : PayField) (hfault : s.fault = false)
    (h : readField buf f ≠ s.raw f) : exec (.eq buf) s = .next (s.respond 0) := by
  have hne : s.pay ≠ buf := fun he => h (he ▸ rfl)
  show command s _ = _
  rw [command_operating hfault, if_neg hne]
  rfl

/-- VIEW's response holds PAYV from its bit 48 up, so the reserved field from bit 120 up (`44_view.md` R89). -/
theorem rsv_of_rspView (pay : PayVec) : ((rspView pay).extractLsb' 120 3).toNat = readField pay .rsv := by
  have h : (rspView pay).extractLsb' 120 3 = (viewBytes (rspView pay)).extractLsb' 72 3 := by
    apply BitVec.eq_of_getLsbD_eq
    intro k hk
    have hin : 72 + k < 80 := by omega
    simp [viewBytes, ← Nat.add_assoc, hin]
  rw [h, viewBytes_rspView]
  rfl

/-- Settles O25: the payload of CLR and reset is zero and that of LOAD the operand; every other command leaves the
field alone; EQ tells payloads apart that differ in it; and VIEW's response holds it. -/
theorem reservedBitsAreOrdinaryStorage : Obligations.ReservedBitsAreOrdinaryStorage := by
  unfold Obligations.ReservedBitsAreOrdinaryStorage
  refine ⟨fun s t h => ?clr, fun s => ?reset, fun b s t h => ?load, fun i s t hclr hload h => ?other,
    fun s v hfault hv hne => ?eq, fun s hfault => ?view⟩
  case clr =>
    obtain ⟨-, rfl⟩ := command_next h
    exact readField_zero .rsv
  case reset => exact readField_zero .rsv
  case load =>
    obtain ⟨-, rfl⟩ := command_next h
    rfl
  case other => exact raw_exec_of_notMem_writes h (rsv_notMem_writes hclr hload)
  case eq =>
    exact execEq_of_field_ne .rsv hfault (by rwa [readField_writeField_same _ hv])
  case view => exact ⟨rspView s.pay, command_operating hfault, rsv_of_rspView s.pay⟩

end Sys2Proof.Proofs
end

section
/-! PROOF. The construction commands CLR and LOAD (`40_construct.md` R70, R71): their words, their whole effect, and
that VIEW gives back what LOAD put into PAY. -/

namespace Sys2Proof.Proofs

open Sys2Proof.Machine Sys2Proof.Claims

/-! ### Words (`30_encoding.md` R58, R62) -/

/-- The table gives a word at most one command under an opcode. -/
theorem OpcodeRow.unique {w : CmdWord} {op : BitVec 4} {i j : Instr} (hi : OpcodeRow w op i) (hj : OpcodeRow w op j) :
    i = j := by
  cases hi <;> (cases hj; rfl)

/-- A word with a row's opcode spells that row's command. -/
theorem decode_of_hasOp {w : CmdWord} {op : BitVec 4} {i : Instr} (hop : HasOp op w) (hrow : OpcodeRow w op i) :
    decode w = i := by
  obtain rfl : cmdOp w = op := hop
  exact (opcodeRow_decode w).unique hrow

/-- Byte k of the 80 bits from bit 48 up, where a command word has BUF (R58) and VIEW's response PAYV (R59). -/
theorem payByte_extractLsb'_48 {n : Nat} (x : BitVec n) (k : Fin 10) :
    payByte (x.extractLsb' 48 80) k = x.extractLsb' (120 - 8 * k.val) 8 := by
  have hstart : 120 - 8 * k.val = 48 + (72 - 8 * k.val) := by omega
  apply BitVec.eq_of_getLsbD_eq
  intro j hj
  have hin : 72 - 8 * k.val + j < 80 := by omega
  rw [getLsbD_payByte, BitVec.getLsbD_extractLsb', BitVec.getLsbD_extractLsb', hstart, Nat.add_assoc]
  simp [hin]

theorem payByte_bufOperand (w : CmdWord) (k : Fin 10) :
    payByte (bufOperand w) k = w.extractLsb' (120 - 8 * k.val) 8 := by
  rw [bufOperand_eq, payByte_extractLsb'_48]

/-- VIEW's response holds byte k of PAY where a command word has byte k of BUF (`44_view.md` R89). -/
theorem rspView_byte (pay : PayVec) (k : Fin 10) :
    (rspView pay).extractLsb' (120 - 8 * k.val) 8 = payByte pay k := by
  rw [← payByte_extractLsb'_48]
  exact congrArg (payByte · k) (viewBytes_rspView pay)

/-! ### The commands on an operating block (`60_exceptions.md` R96) -/

section
variable {s : State} (hfault : s.fault = false)
include hfault

theorem exec_clr : exec .clr s = .next ((s.setPay 0).respond rspNone) := command_operating hfault

theorem exec_load (buf : PayVec) : exec (.load buf) s = .next ((s.setPay buf).respond rspNone) :=
  command_operating hfault

theorem exec_view : exec .view s = .next (s.respond (rspView s.pay)) := command_operating hfault

end

/-- Settles O35: the row of opcode 0x0 is CLR's, and CLR replaces PAY by zero and responds, and does nothing else. -/
theorem clearZeroesThePayload : Obligations.ClearZeroesThePayload := by
  unfold Obligations.ClearZeroesThePayload
  exact ⟨fun w hop => decode_of_hasOp hop .clr,
    fun s hfault => ⟨_, exec_clr hfault, payByte_zero, rfl, rfl, rfl, rfl⟩⟩

/-- Settles O36: the row of opcode 0x1 is LOAD's with the buffer operand, whose bytes are slices of the word, and LOAD
replaces PAY by that operand and responds, and does nothing else. -/
theorem loadCopiesTheTenBytes : Obligations.LoadCopiesTheTenBytes := by
  unfold Obligations.LoadCopiesTheTenBytes
  exact ⟨fun w hop => ⟨bufOperand w, decode_of_hasOp hop .load, payByte_bufOperand w⟩,
    fun buf s hfault => ⟨_, exec_load hfault buf, fun _ => rfl, rfl, rfl, rfl, rfl⟩⟩

/-- Settles O55: LOAD leaves the block operating with the vector of the bytes in PAY, and VIEW's response holds the
bytes of PAY. -/
theorem viewAfterLoadReturnsTheBytes : Obligations.ViewAfterLoadReturnsTheBytes := by
  unfold Obligations.ViewAfterLoadReturnsTheBytes
  intro b s hfault
  have hload := exec_load hfault (payOfBytes b)
  refine ⟨_, _, _, hload, exec_view hfault, rfl, fun k => ?_⟩
  calc (rspView (payOfBytes b)).extractLsb' (120 - 8 * k.val) 8
      = payByte (payOfBytes b) k := rspView_byte _ k
    _ = b k := payByte_payOfBytes b k

end Sys2Proof.Proofs
end

section
/-! PROOF. The equality command EQ (`41_equality.md` R73): it answers 1 where PAY is the operand and 0 where it is not,
and both ten bytes and single bits tell two payloads apart. -/

namespace Sys2Proof.Proofs

open Sys2Proof.Machine Sys2Proof.Claims

/-- EQ on an operating block answers with the comparison of PAY and the operand, and does nothing else. -/
theorem exec_eq {s : State} (hfault : s.fault = false) (buf : PayVec) :
    exec (.eq buf) s = .next (s.respond (rspWord (if s.pay = buf then 1 else 0) 0)) := command_operating hfault

theorem exec_eq_of_pay_eq {s : State} {buf : PayVec} (hfault : s.fault = false) (h : s.pay = buf) :
    exec (.eq buf) s = .next (s.respond (rspWord 1 0)) := by rw [exec_eq hfault, if_pos h]

theorem exec_eq_of_pay_ne {s : State} {buf : PayVec} (hfault : s.fault = false) (h : s.pay ≠ buf) :
    exec (.eq buf) s = .next (s.respond 0) := by
  rw [exec_eq hfault, if_neg h]
  rfl

/-- A payload differs from itself with one bit inverted: in that bit. -/
theorem ne_xor_single_bit (pay : PayVec) {k : Nat} (hk : k < 80) : pay ≠ pay ^^^ (1#80 <<< k) := by
  intro h
  have hbit : pay.getLsbD k = !pay.getLsbD k := by
    calc pay.getLsbD k = (pay ^^^ (1#80 <<< k)).getLsbD k := congrArg (·.getLsbD k) h
      _ = !pay.getLsbD k := by simp [hk]
  exact Bool.self_ne_not _ hbit

/-- Settles O37: the row of opcode 0x2 is EQ's with the buffer operand; payloads are equal exactly where their ten
bytes agree, and inverting one bit makes another payload. -/
theorem eqComparesTheTenBytes : Obligations.EqComparesTheTenBytes := by
  unfold Obligations.EqComparesTheTenBytes
  refine ⟨fun w hop => ?word, fun buf s hfault => ⟨fun hagree => ?agree, fun hdiffer => ?differ⟩,
    fun s k hfault hk => ?bit⟩
  case word => exact ⟨bufOperand w, decode_of_hasOp hop .eq, payByte_bufOperand w⟩
  case agree => exact exec_eq_of_pay_eq hfault (pay_ext hagree)
  case differ =>
    obtain ⟨i, hi⟩ := hdiffer
    have hne : s.pay ≠ buf := fun h => hi (congrArg (payByte · i) h)
    exact exec_eq_of_pay_ne hfault hne
  case bit => exact exec_eq_of_pay_ne hfault (ne_xor_single_bit s.pay hk)

end Sys2Proof.Proofs
end

section
/-! PROOF. The six setters (`42_setters.md` R76 to R81): their words, and their two outcomes on an operating block.
What a written field does to the bytes of PAY is O22's. -/

namespace Sys2Proof.Proofs

open Sys2Proof.Machine Sys2Proof.Claims

/-! ### The two outcomes of a setter (`42_setters.md` R74) -/

/-- `raise` and the statements' `Raised` are the same state. -/
theorem raisePrecondition_eq_raised (c : BitVec 3) (s : State) : s.raisePrecondition c = Raised c s := rfl

/-- What is inserted is a number of w bits (R75). -/
theorem rawOf_lt (w : Nat) (e : Int) : rawOf w e < 2 ^ w := by
  have hpos : (0 : Int) < 2 ^ w := pow_pos two_pos w
  rw [rawOf, Int.toNat_lt (Int.emod_nonneg e hpos.ne')]
  exact_mod_cast Int.emod_lt_of_pos e hpos

/-- The reduction before the insert changes no value that fits the field (R75). -/
theorem rawOf_of_lt {w : Nat} {e : Int} (h : 0 ≤ e) (hw : e < 2 ^ w) : rawOf w e = e.toNat := by
  rw [rawOf, Int.emod_eq_of_lt h hw]

section
variable {s : State} {ok : Bool} {c : BitVec 3} {f : PayField} {e : Int} (hfault : s.fault = false)
include hfault

theorem command_strictSet_of_ok (hok : ok = true) :
    command s (strictSet ok c f e s) = .next ((s.setField f (rawOf f.width e)).respond rspNone) := by
  rw [command_operating hfault, strictSet, if_pos hok]

theorem command_strictSet_of_not_ok (hok : ok = false) :
    command s (strictSet ok c f e s) = .next (Raised c s) := by
  rw [command_operating hfault, strictSet, if_neg (Bool.eq_false_iff.mp hok), raisePrecondition_eq_raised]

end

/-! ### What a write keeps -/

/-- A field write keeps the bytes its insert keeps, the latch and the host's inputs. -/
theorem keptBut_setField {s : State} {f : PayField} {v : Nat} {bytes : List (Fin 10)}
    (h : ∀ i, i ∉ bytes → After s.pay f v i = payByte s.pay i) : KeptBut bytes s (s.setField f v) :=
  ⟨h, rfl, rfl, rfl⟩

theorem keptBut_respond {s t : State} {bytes : List (Fin 10)} (h : KeptBut bytes s t) (r : RspWord) :
    KeptBut bytes s (t.respond r) := h

/-- Two writes in a row keep what both keep. -/
theorem keptBut_append {s t u : State} {bytes bytes' : List (Fin 10)} (h : KeptBut bytes s t)
    (h' : KeptBut bytes' t u) : KeptBut (bytes ++ bytes') s u := by
  obtain ⟨hbytes, hfault, hfcode, hinputs⟩ := h
  obtain ⟨hbytes', hfault', hfcode', hinputs'⟩ := h'
  refine ⟨fun i hi => ?_, hfault'.trans hfault, hfcode'.trans hfcode, hinputs'.trans hinputs⟩
  obtain ⟨hi₁, hi₂⟩ := not_or.mp (mt List.mem_append.mpr hi)
  exact (hbytes' i hi₂).trans (hbytes i hi₁)

/-! ### The setters of one field -/

theorem verOk_iff (n : Int) : verOk n = true ↔ 0 ≤ n ∧ n ≤ 15 := by simp [verOk]

/-- Settles O38: in the domain the raw value is n itself, and the insert of the version field is the byte formula. -/
theorem setverWritesTheTopNibble : Obligations.SetverWritesTheTopNibble := by
  unfold Obligations.SetverWritesTheTopNibble
  refine ⟨fun w hop => decode_of_hasOp hop .setver, fun n s hfault => ⟨fun hn => ?writes, fun hn => ?faults⟩⟩
  case writes =>
    have hraw : rawOf 4 (encVer n) = n.toNat := rawOf_of_lt hn.1 (Int.lt_of_le_of_lt hn.2 (by decide))
    obtain ⟨hver, -⟩ := insertByBytes s.pay (rawOf 4 (encVer n)) (payByte s.pay) fun _ => rfl
    obtain ⟨hbyte, hkept⟩ := hver (rawOf_lt 4 _)
    exact ⟨_, command_strictSet_of_ok hfault ((verOk_iff n).mpr hn), hraw ▸ hbyte,
      keptBut_respond (keptBut_setField hkept) _, rfl⟩
  case faults =>
    exact command_strictSet_of_not_ok hfault (Bool.eq_false_iff.mpr (mt (verOk_iff n).mp hn))

/-- Settles O39: the insert of the temperature field is the rule's two byte formulas. -/
theorem settempWritesTheTenBits : Obligations.SettempWritesTheTenBits := by
  unfold Obligations.SettempWritesTheTenBits
  refine ⟨fun w hop => decode_of_hasOp hop .settemp, fun x s raw hfault hraw =>
    ⟨fun hok => ?_, command_strictSet_of_not_ok hfault⟩⟩
  obtain rfl : raw = rawOf 10 (encTemp x) := hraw
  obtain ⟨-, -, htemp, -⟩ := insertByBytes s.pay (rawOf 10 (encTemp x)) (payByte s.pay) fun _ => rfl
  obtain ⟨hbyte1, hbyte2, hkept⟩ := htemp (rawOf_lt 10 _)
  exact ⟨_, command_strictSet_of_ok hfault hok, hbyte1, hbyte2, keptBut_respond (keptBut_setField hkept) _, rfl⟩

/-- Settles O40: the insert of the humidity field is the rule's two byte formulas. -/
theorem sethumWritesTheSevenBits : Obligations.SethumWritesTheSevenBits := by
  unfold Obligations.SethumWritesTheSevenBits
  refine ⟨fun w hop => decode_of_hasOp hop .sethum, fun x s raw hfault hraw =>
    ⟨fun hok => ?_, command_strictSet_of_not_ok hfault⟩⟩
  obtain rfl : raw = rawOf 7 (encHum x) := hraw
  obtain ⟨-, -, -, hhum, -⟩ := insertByBytes s.pay (rawOf 7 (encHum x)) (payByte s.pay) fun _ => rfl
  obtain ⟨hbyte2, hbyte3, hkept⟩ := hhum (rawOf_lt 7 _)
  exact ⟨_, command_strictSet_of_ok hfault hok, hbyte2, hbyte3, keptBut_respond (keptBut_setField hkept) _, rfl⟩

/-- Settles O41: the insert of the gas field is the rule's byte formula. -/
theorem setgasWritesTheSevenBits : Obligations.SetgasWritesTheSevenBits := by
  unfold Obligations.SetgasWritesTheSevenBits
  refine ⟨fun w hop => decode_of_hasOp hop .setgas, fun x s raw hfault hraw =>
    ⟨fun hok => ?_, command_strictSet_of_not_ok hfault⟩⟩
  obtain rfl : raw = rawOf 7 (encGas x) := hraw
  obtain ⟨-, -, -, -, hgas, -⟩ := insertByBytes s.pay (rawOf 7 (encGas x)) (payByte s.pay) fun _ => rfl
  obtain ⟨hbyte3, hkept⟩ := hgas (rawOf_lt 7 _)
  exact ⟨_, command_strictSet_of_ok hfault hok, hbyte3, keptBut_respond (keptBut_setField hkept) _, rfl⟩

/-- SETBAT has no check: it writes the bit and responds (R81). -/
theorem exec_setbat {s : State} (hfault : s.fault = false) (b : Bool) :
    exec (.setbat b) s = .next ((s.setField .bat (encBat b)).respond rspNone) := command_operating hfault

theorem encBat_lt (b : Bool) : encBat b < 2 ^ 1 := by cases b <;> decide

/-- The battery flag in its place in byte 0. -/
theorem byte_encBat_shiftLeft (b : Bool) :
    BitVec.ofNat 8 (encBat b <<< 3) = if b then 0x08#8 else 0x00#8 := by cases b <;> rfl

/-- Settles O43: the insert of the battery field is the byte formula, and nothing is checked. -/
theorem setbatWritesOneBit : Obligations.SetbatWritesOneBit := by
  unfold Obligations.SetbatWritesOneBit
  refine ⟨fun w hop => decode_of_hasOp hop .setbat, fun b s hfault => ?_⟩
  obtain ⟨-, hbat, -⟩ := insertByBytes s.pay (encBat b) (payByte s.pay) fun _ => rfl
  obtain ⟨hbyte, hkept⟩ := hbat (encBat_lt b)
  rw [byte_encBat_shiftLeft] at hbyte
  exact ⟨_, exec_setbat hfault b, hbyte, keptBut_respond (keptBut_setField hkept) _, rfl⟩

/-! ### SETGPS: two checks, two fields (`42_setters.md` R80, `60_exceptions.md` R98) -/

section
variable {s : State} {lat lon : Real64} (hfault : s.fault = false)
include hfault

theorem exec_setgps_of_ok (hlat : gpsOk lat = true) (hlon : gpsOk lon = true) : exec (.setgps lat lon) s =
    .next (((s.setField .lat (rawOf 24 (encGps lat))).setField .lon (rawOf 24 (encGps lon))).respond rspNone) := by
  show command s _ = _
  rw [command_operating hfault, if_pos hlat, if_pos hlon]

theorem exec_setgps_of_lon_not_ok (hlat : gpsOk lat = true) (hlon : gpsOk lon = false) :
    exec (.setgps lat lon) s = .next (Raised codeLongitude s) := by
  show command s _ = _
  rw [command_operating hfault, if_pos hlat, if_neg (Bool.eq_false_iff.mp hlon), raisePrecondition_eq_raised]

theorem exec_setgps_of_lat_not_ok (hlat : gpsOk lat = false) :
    exec (.setgps lat lon) s = .next (Raised codeLatitude s) := by
  show command s _ = _
  rw [command_operating hfault, if_neg (Bool.eq_false_iff.mp hlat), raisePrecondition_eq_raised]

end

/-- Settles O42: the longitude is inserted after the latitude and its insert keeps the latitude's bytes; the first
check that fails decides the code. -/
theorem setgpsWritesBothOrNeither : Obligations.SetgpsWritesBothOrNeither := by
  unfold Obligations.SetgpsWritesBothOrNeither
  refine ⟨fun w hop => decode_of_hasOp hop .setgps, fun x y s rlat rlon hfault hrlat hrlon =>
    ⟨fun hx hy => ?_, exec_setgps_of_lon_not_ok hfault, exec_setgps_of_lat_not_ok hfault⟩⟩
  obtain rfl : rlat = rawOf 24 (encGps x) := hrlat
  obtain rfl : rlon = rawOf 24 (encGps y) := hrlon
  obtain ⟨-, -, -, -, -, hlat, -⟩ := insertByBytes s.pay (rawOf 24 (encGps x)) (payByte s.pay) fun _ => rfl
  obtain ⟨hbyte4, hbyte5, hbyte6, hlatKept⟩ := hlat (rawOf_lt 24 _)
  obtain ⟨-, -, -, -, -, -, hlon⟩ := insertByBytes (writeField s.pay .lat (rawOf 24 (encGps x)))
    (rawOf 24 (encGps y)) (After s.pay .lat (rawOf 24 (encGps x))) fun _ => rfl
  obtain ⟨hbyte7, hbyte8, hbyte9, hlonKept⟩ := hlon (rawOf_lt 24 _)
  have hkept := keptBut_append (keptBut_setField hlatKept) (keptBut_setField hlonKept)
  exact ⟨_, exec_setgps_of_ok hfault hx hy, (hlonKept 4 (by decide)).trans hbyte4,
    (hlonKept 5 (by decide)).trans hbyte5, (hlonKept 6 (by decide)).trans hbyte6, hbyte7, hbyte8, hbyte9,
    keptBut_respond hkept _, rfl⟩

end Sys2Proof.Proofs
end

section
/-! PROOF. The six getters (`43_getters.md` R83 to R88): their words, and their one outcome on an operating block. What
a field's raw value is in the bytes of PAY is O21's. -/

namespace Sys2Proof.Proofs

open Sys2Proof.Machine Sys2Proof.Claims

/-! ### The getters on an operating block (`60_exceptions.md` R96) -/

section
variable {s : State} (hfault : s.fault = false)
include hfault

theorem exec_getver : exec .getver s = .next (s.respond (rspWord (BitVec.ofNat 64 (s.raw .ver)) 0)) :=
  command_operating hfault

theorem exec_getbat : exec .getbat s = .next (s.respond (rspWord (BitVec.ofNat 64 (s.raw .bat)) 0)) :=
  command_operating hfault

theorem exec_gettemp : exec .gettemp s = .next (s.respond (rspWord (decTemp (s.raw .temp)) 0)) :=
  command_operating hfault

theorem exec_gethum : exec .gethum s = .next (s.respond (rspWord (decHum (s.raw .hum)) 0)) :=
  command_operating hfault

theorem exec_getgas : exec .getgas s = .next (s.respond (rspWord (decGas (s.raw .gas)) 0)) :=
  command_operating hfault

theorem exec_getgps :
    exec .getgps s = .next (s.respond (rspWord (decGps (s.raw .lat)) (decGps (s.raw .lon)))) :=
  command_operating hfault

end

/-! ### The getters of one field -/

/-- Settles O44: the version field is byte 0 without its low half. -/
theorem getverReadsTheTopNibble : Obligations.GetverReadsTheTopNibble := by
  unfold Obligations.GetverReadsTheTopNibble
  refine ⟨fun w hop => decode_of_hasOp hop .getver, fun s hfault => ?_⟩
  obtain ⟨hver, -⟩ := extractByBytes.2 s.pay _ fun _ => rfl
  rw [← hver]
  exact exec_getver hfault

/-- Settles O45: the battery field is bit 3 of byte 0. -/
theorem getbatReadsOneBit : Obligations.GetbatReadsOneBit := by
  unfold Obligations.GetbatReadsOneBit
  refine ⟨fun w hop => decode_of_hasOp hop .getbat, fun s hfault => ?_⟩
  obtain ⟨-, hbat, -⟩ := extractByBytes.2 s.pay _ fun _ => rfl
  rw [← hbat]
  exact exec_getbat hfault

/-- Settles O46: the temperature field is byte 1 and the top of byte 2, and its decode is a division and a
subtraction. -/
theorem gettempDecodesTheTenBits : Obligations.GettempDecodesTheTenBits := by
  unfold Obligations.GettempDecodesTheTenBits
  refine ⟨fun w hop => decode_of_hasOp hop .gettemp, fun s raw hfault hraw => ?_⟩
  obtain ⟨-, -, -, htemp, -⟩ := extractByBytes.2 s.pay _ fun _ => rfl
  obtain rfl : raw = s.raw .temp := hraw.trans htemp.symm
  exact exec_gettemp hfault

/-- Settles O47: the humidity field is the rest of byte 2 and the top of byte 3, and its decode is a division and a
multiplication. -/
theorem gethumDecodesTheSevenBits : Obligations.GethumDecodesTheSevenBits := by
  unfold Obligations.GethumDecodesTheSevenBits
  refine ⟨fun w hop => decode_of_hasOp hop .gethum, fun s raw hfault hraw => ?_⟩
  obtain ⟨-, -, -, -, hhum, -⟩ := extractByBytes.2 s.pay _ fun _ => rfl
  obtain rfl : raw = s.raw .hum := hraw.trans hhum.symm
  exact exec_gethum hfault

/-- Settles O48: the gas field is the rest of byte 3, and its decode is a division. -/
theorem getgasDecodesTheSevenBits : Obligations.GetgasDecodesTheSevenBits := by
  unfold Obligations.GetgasDecodesTheSevenBits
  refine ⟨fun w hop => decode_of_hasOp hop .getgas, fun s raw hfault hraw => ?_⟩
  obtain ⟨-, -, -, -, -, hgas, -⟩ := extractByBytes.2 s.pay _ fun _ => rfl
  obtain rfl : raw = s.raw .gas := hraw.trans hgas.symm
  exact exec_getgas hfault

/-! ### GETGPS: two fields, one response (`43_getters.md` R88) -/

/-- Settles O49: each coordinate is three bytes, big-endian, and both have the same decode. -/
theorem getgpsDecodesBothAxes : Obligations.GetgpsDecodesBothAxes := by
  unfold Obligations.GetgpsDecodesBothAxes
  refine ⟨fun w hop => decode_of_hasOp hop .getgps, fun s rlat rlon hfault hrlat hrlon => ?_⟩
  obtain ⟨-, -, -, -, -, -, hlat, hlon⟩ := extractByBytes.2 s.pay _ fun _ => rfl
  obtain rfl : rlat = s.raw .lat := hrlat.trans hlat.symm
  obtain rfl : rlon = s.raw .lon := hrlon.trans hlon.symm
  exact exec_getgps hfault

end Sys2Proof.Proofs
end

section
/-! PROOF. The command VIEW (`44_view.md` R89): its word, and its response, whose bytes of PAY are `rspView_byte`. -/

namespace Sys2Proof.Proofs

open Sys2Proof.Machine Sys2Proof.Claims

/-- Between PAYV and the count VIEW's response is zero (`30_encoding.md` R59). -/
theorem rspView_zeros (pay : PayVec) : (rspView pay).extractLsb' 4 44 = 0#44 := by
  calc (rspView pay).extractLsb' 4 44
      = (pay ++ 0#44).extractLsb' 0 44 := BitVec.extractLsb'_append_eq_of_le (le_refl 4)
    _ = 0#44 := BitVec.extractLsb'_append_eq_right

/-- The low four bits of VIEW's response are NBYTES (`30_encoding.md` R59). -/
theorem rspView_count (pay : PayVec) : (rspView pay).extractLsb' 0 4 = BitVec.ofNat 4 Config.nbytes :=
  BitVec.extractLsb'_append_eq_right

/-- Settles O50: the row of opcode 0xF is VIEW's, and VIEW responds with PAYV, the zeros and NBYTES, which is 10, and
does nothing else. -/
theorem viewReturnsBytesAndCount : Obligations.ViewReturnsBytesAndCount := by
  unfold Obligations.ViewReturnsBytesAndCount
  exact ⟨fun w hop => decode_of_hasOp hop .view,
    fun s hfault => ⟨rspView s.pay, exec_view hfault, rspView_byte s.pay, rspView_zeros s.pay, rspView_count s.pay⟩⟩

end Sys2Proof.Proofs
end

section
/-! PROOF. The precondition-violation fault (`60_exceptions.md` R91, R92): the checks of the strict setters are the
domains of the cause table, so what a command does on an operating block is read off its entry in that table. -/

namespace Sys2Proof.Proofs

open Sys2Proof.Machine Sys2Proof.Claims

/-! ### The domain checks by value (`42_setters.md` R74) -/

/-- The patterns that are no number are the NaNs and the two infinities (R6). -/
theorem nan_or_inf_of_not_finite {r : Real64} (h : isFinite r = false) :
    isNaN r = true ∨ r = posInf ∨ r = negInf := by
  have hge : infBits ≤ r.toNat % 2 ^ 63 := not_lt.mp (mt (isFinite_iff r).mpr (Bool.eq_false_iff.mp h))
  cases hnan : isNaN r with
  | true => exact .inl rfl
  | false =>
    have hle := (isNaN_eq_false_iff r).mp hnan
    simp only [infBits] at hge hle
    refine .inr ?_
    unfold posInf negInf
    bv_omega

section
variable {lo hi x : Real64} (hlo : isFinite lo = true) (hhi : isFinite hi = true)
include hlo hhi

/-- Between finite ends a NaN fails both comparisons and an infinity one of them. -/
theorem inRange_of_not_finite (hx : isFinite x = false) : inRange lo hi x = false := by
  rw [inRange, Bool.and_eq_false_iff]
  rcases nan_or_inf_of_not_finite hx with hnan | rfl | rfl
  · exact .inl (fle_nan (.inr hnan))
  · exact .inr (not_posInf_fle_finite hhi)
  · exact .inl (not_finite_fle_negInf hlo)

/-- A check between finite ends passes exactly on the numbers in the interval of their values. -/
theorem inRange_eq_realIn : inRange lo hi x = realIn (val lo) (val hi) x := by
  cases hx : isFinite x with
  | false => rw [inRange_of_not_finite hlo hhi hx, realIn, hx, Bool.false_and, Bool.false_and]
  | true =>
    obtain ⟨hvalues, -⟩ := compareFollowsTheValues
    rw [Bool.eq_iff_iff]
    simp [inRange, realIn, hx, hvalues lo x hlo hx, hvalues x hi hx hhi]

end

theorem tempOk_eq_realIn (t : Real64) : tempOk t = realIn (-50) tempTop t := by
  obtain ⟨hlo, -⟩ := val_exact_domain_ends
  obtain ⟨hhi, -⟩ := val_inexact_constants
  rw [tempOk, inRange_eq_realIn (by decide) (by decide), hlo, hhi, tempTop]

theorem humOk_eq_realIn (h : Real64) : humOk h = realIn 0 100 h := by
  obtain ⟨-, hlo, hhi, -⟩ := val_exact_domain_ends
  rw [humOk, inRange_eq_realIn (by decide) (by decide), hlo, hhi]

theorem gasOk_eq_realIn (g : Real64) : gasOk g = realIn 0 3 g := by
  obtain ⟨-, hlo, -, hhi, -⟩ := val_exact_domain_ends
  rw [gasOk, inRange_eq_realIn (by decide) (by decide), hlo, hhi]

theorem gpsOk_eq_realIn (x : Real64) : gpsOk x = realIn (-180) 180 x := by
  obtain ⟨-, -, -, -, hlo, hhi⟩ := val_exact_domain_ends
  rw [gpsOk, inRange_eq_realIn (by decide) (by decide), hlo, hhi]

/-! ### The cause table by the checks (`60_exceptions.md` R91, R98) -/

theorem violation_setver (n : Int) : (Instr.setver n).violation = if verOk n then none else some codeVersion := by
  simp only [verOk_iff]
  rfl

theorem violation_settemp (t : Real64) :
    (Instr.settemp t).violation = if tempOk t then none else some codeTemperature := by
  rw [tempOk_eq_realIn]
  rfl

theorem violation_sethum (h : Real64) : (Instr.sethum h).violation = if humOk h then none else some codeHumidity := by
  rw [humOk_eq_realIn]
  rfl

theorem violation_setgas (g : Real64) : (Instr.setgas g).violation = if gasOk g then none else some codeGas := by
  rw [gasOk_eq_realIn]
  rfl

theorem violation_setgps (lat lon : Real64) : (Instr.setgps lat lon).violation =
    if gpsOk lat then (if gpsOk lon then none else some codeLongitude) else some codeLatitude := by
  rw [gpsOk_eq_realIn, gpsOk_eq_realIn]
  rfl

/-! ### Commands on an operating block -/

section
variable {s : State} (hfault : s.fault = false)
include hfault

/-- Every command completes: FAULT = 0 is the one precondition of a command (R96). -/
theorem exec_completes (i : Instr) : ∃ t, exec i s = .next t := by
  cases i <;> exact ⟨_, command_operating hfault⟩

theorem command_strictSet_of_violation {ok : Bool} {code c : BitVec 3} {f : PayField} {e : Int}
    (hv : (if ok then none else some code) = some c) : command s (strictSet ok code f e s) = .next (Raised c s) := by
  obtain ⟨hok, hcode⟩ := Option.ite_none_left_eq_some.mp hv
  obtain rfl := Option.some.inj hcode
  exact command_strictSet_of_not_ok hfault (Bool.eq_false_iff.mpr hok)

theorem exec_setgps_of_violation {lat lon : Real64} {c : BitVec 3}
    (hv : (Instr.setgps lat lon).violation = some c) : exec (.setgps lat lon) s = .next (Raised c s) := by
  rw [violation_setgps] at hv
  cases hlat : gpsOk lat with
  | false =>
    obtain rfl : codeLatitude = c := by simpa [hlat] using hv
    exact exec_setgps_of_lat_not_ok hfault hlat
  | true =>
    obtain ⟨hlon, rfl⟩ : gpsOk lon = false ∧ codeLongitude = c := by simpa [hlat] using hv
    exact exec_setgps_of_lon_not_ok hfault hlat hlon

/-- A command the cause table has an entry for takes the exception with that entry's code. -/
theorem exec_of_violation {i : Instr} {c : BitVec 3} (hv : i.violation = some c) :
    exec i s = .next (Raised c s) := by
  cases i with
  | setver n => exact command_strictSet_of_violation hfault (violation_setver n ▸ hv)
  | settemp t => exact command_strictSet_of_violation hfault (violation_settemp t ▸ hv)
  | sethum h => exact command_strictSet_of_violation hfault (violation_sethum h ▸ hv)
  | setgas g => exact command_strictSet_of_violation hfault (violation_setgas g ▸ hv)
  | setgps lat lon => exact exec_setgps_of_violation hfault hv
  | clr | load | eq | setbat | getver | getbat | gettemp | gethum | getgas | getgps | view => cases hv

end

/-- A command the cause table has no entry for leaves the latch and the host's inputs. -/
theorem exec_of_no_violation {i : Instr} {s t : State} (h : exec i s = .next t) (hv : i.violation = none) :
    t.fault = false ∧ t.fcode = s.fcode ∧ t.inputs = s.inputs := by
  obtain ⟨hfault, hnext⟩ := exec_next h
  rcases hnext with ⟨-, _, rfl⟩ | ⟨_, -, rfl⟩ | ⟨_, -, -, rfl⟩ | ⟨_, -, -, rfl⟩ | ⟨_, -, -, rfl⟩ | ⟨_, -, -, rfl⟩ |
    ⟨_, _, -, -, -, rfl⟩ | ⟨_, -, rfl⟩ | ⟨_, -, hraised⟩
  iterate 8 exact ⟨hfault, rfl, rfl⟩
  rcases hraised with ⟨_, rfl, hok, -⟩ | ⟨_, rfl, hok, -⟩ | ⟨_, rfl, hok, -⟩ | ⟨_, rfl, hok, -⟩ |
    ⟨_, _, rfl, hlat, -⟩ | ⟨_, _, rfl, hlat, hlon, -⟩
  · simp [violation_setver, hok] at hv
  · simp [violation_settemp, hok] at hv
  · simp [violation_sethum, hok] at hv
  · simp [violation_setgas, hok] at hv
  · simp [violation_setgps, hlat] at hv
  · simp [violation_setgps, hlat, hlon] at hv

/-- Settles O17: the checks are the domains of the cause table, so an entry of the table is a check that fails, which
is the exception, and without an entry every check passes, after which no command touches the latch. -/
theorem faultsAreExactlyTheTable : Obligations.FaultsAreExactlyTheTable := by
  unfold Obligations.FaultsAreExactlyTheTable
  intro i s hfault
  obtain ⟨t, ht⟩ := exec_completes hfault i
  refine ⟨t, ht, fun c hv => ?_, exec_of_no_violation ht⟩
  have hraised : exec i s = .next (Raised c s) := exec_of_violation hfault hv
  exact Host.Outcome.next.inj (ht.symm.trans hraised)

end Sys2Proof.Proofs
end

section
/-! PROOF. Rounding (`00_scope.md` R7) as a function of the exact result: `rnd x` is the value of the binary64 nearest
to x, ties to even. Each operation's result has the value `rnd` of its exact result; `rnd` keeps order and sign, fixes
the numbers a binary64 can spell, and errs by half a spacing at most. -/

namespace Sys2Proof.Proofs

-- One declaration after the other: checking the text then needs less memory.
set_option Elab.async false

open Sys2Proof.Machine Sys2Proof.Claims

/-! ### The nearest integer -/

/-- Two different integers are at distance 1 at least, and no number is nearer than half of that to both. -/
theorem one_le_abs_sub_add_abs_sub {k n : ℕ} (h : k ≠ n) (q : ℚ) : 1 ≤ |(k : ℚ) - q| + |(n : ℚ) - q| := by
  have hint : (1 : ℤ) ≤ |(k : ℤ) - n| := Int.one_le_abs (sub_ne_zero.mpr (Nat.cast_injective.ne h))
  calc (1 : ℚ) ≤ |(k : ℚ) - n| := by exact_mod_cast hint
    _ ≤ |(k : ℚ) - q| + |q - n| := abs_sub_le _ _ _
    _ = |(k : ℚ) - q| + |(n : ℚ) - q| := by rw [abs_sub_comm q]

section
variable {r num den : ℚ} (hd : 0 < den)
include hd

theorem abs_sub_div_eq : |r - num / den| = |2 * (r * den) - 2 * num| / (2 * den) := by
  rw [← mul_sub, abs_mul, abs_two, mul_div_mul_left _ _ two_ne_zero, sub_div' hd.ne', abs_div, abs_of_pos hd]

theorem abs_sub_div_le_half_iff :
    |r - num / den| ≤ 1 / 2 ↔ 2 * (r * den) ≤ 2 * num + den ∧ 2 * num ≤ 2 * (r * den) + den := by
  rw [abs_sub_div_eq hd, div_le_iff₀ (mul_pos two_pos hd), one_div, inv_mul_cancel_left₀ two_ne_zero, abs_sub_le_iff,
    sub_le_iff_le_add', sub_le_iff_le_add']

theorem abs_sub_div_lt_half_iff :
    |r - num / den| < 1 / 2 ↔ 2 * (r * den) < 2 * num + den ∧ 2 * num < 2 * (r * den) + den := by
  rw [abs_sub_div_eq hd, div_lt_iff₀ (mul_pos two_pos hd), one_div, inv_mul_cancel_left₀ two_ne_zero, abs_sub_lt_iff,
    sub_lt_iff_lt_add', sub_lt_iff_lt_add']

end

section
variable (num : ℕ) {den : ℕ} (hd : 0 < den)
include hd

/-- Off a tie the error is less than half a spacing. -/
theorem roundHalfEven_error_lt (h : 2 * (num % den) ≠ den) :
    2 * (roundHalfEven num den * den) < 2 * num + den ∧ 2 * num < 2 * (roundHalfEven num den * den) + den := by
  have hdm := Nat.div_add_mod' num den
  have hlt := Nat.mod_lt num hd
  unfold roundHalfEven
  generalize num / den = q at *
  generalize num % den = r at *
  split
  · omega
  · rw [if_pos (by omega), Nat.add_mul]
    omega

theorem abs_roundHalfEven_sub_le : |(roundHalfEven num den : ℚ) - num / den| ≤ 1 / 2 := by
  obtain ⟨hup, hdown⟩ := roundHalfEven_error num hd
  rw [abs_sub_div_le_half_iff (Nat.cast_pos.mpr hd)]
  exact ⟨by exact_mod_cast hup, by exact_mod_cast hdown⟩

theorem roundHalfEven_nearest (k : ℕ) : |(roundHalfEven num den : ℚ) - num / den| ≤ |(k : ℚ) - num / den| := by
  rcases eq_or_ne k (roundHalfEven num den) with rfl | hne
  · exact le_refl _
  · have hhalf := abs_roundHalfEven_sub_le num hd
    have hone := one_le_abs_sub_add_abs_sub hne (num / den)
    linarith only [hhalf, hone]

/-- Off by a half, the quotient lies in the middle between two integers: elsewhere the error is less. -/
theorem roundHalfEven_even_of_half (h : |(roundHalfEven num den : ℚ) - num / den| = 1 / 2) :
    roundHalfEven num den % 2 = 0 := by
  by_contra hodd
  obtain ⟨hup, hdown⟩ := roundHalfEven_error_lt num hd fun htie => hodd (roundHalfEven_tie num den htie)
  refine absurd h (ne_of_lt ?_)
  rw [abs_sub_div_lt_half_iff (Nat.cast_pos.mpr hd)]
  exact ⟨by exact_mod_cast hup, by exact_mod_cast hdown⟩

/-- Where another integer is as near, the rounded one is even. -/
theorem roundHalfEven_even_of_tie {k : ℕ} (hne : k ≠ roundHalfEven num den)
    (htie : |(k : ℚ) - num / den| = |(roundHalfEven num den : ℚ) - num / den|) : roundHalfEven num den % 2 = 0 := by
  apply roundHalfEven_even_of_half num hd
  have hhalf := abs_roundHalfEven_sub_le num hd
  have hone := one_le_abs_sub_add_abs_sub hne (num / den)
  linarith only [hhalf, hone, htie]

end

theorem roundHalfEven_mul_right (num den : ℕ) {c : ℕ} (hc : 0 < c) :
    roundHalfEven (num * c) (den * c) = roundHalfEven num den := by
  have hlt (a b : ℕ) : a * c < b * c ↔ a < b := Nat.mul_lt_mul_right hc
  unfold roundHalfEven
  rw [Nat.mul_mod_mul_right, Nat.mul_div_mul_right _ _ hc, ← Nat.mul_assoc]
  simp only [hlt]

/-! ### The nearest magnitude -/

/-- A magnitude above the significands of binade `sh` is a whole number of its spacings. -/
theorem two_pow_dvd_magBits {b sh : ℕ} (h : 2 ^ (52 + sh) ≤ magBits b) : 2 ^ sh ∣ magBits b := by
  unfold magBits at *
  have hfrac : b % 2 ^ 52 < 2 ^ 52 := Nat.mod_lt _ (by decide)
  split at h
  · have : 2 ^ 52 ≤ 2 ^ (52 + sh) := Nat.pow_le_pow_right (by decide) (by lia)
    lia
  · next hexp =>
    rw [if_neg hexp]
    have hlt : (2 ^ 52 + b % 2 ^ 52) * 2 ^ (b / 2 ^ 52 - 1) < 2 ^ (53 + (b / 2 ^ 52 - 1)) := by
      rw [Nat.pow_add]
      exact Nat.mul_lt_mul_of_pos_right (by lia) (Nat.two_pow_pos _)
    have hsh := (Nat.pow_lt_pow_iff_right (by decide)).mp (lt_of_le_of_lt h hlt)
    exact Nat.dvd_mul_left_of_dvd (Nat.pow_dvd_pow 2 (by lia)) _

theorem roundMag_congr {n d n' d' : ℕ} (hd : 0 < d) (hd' : 0 < d') (h : n * d' = n' * d) :
    roundMag n d = roundMag n' d' :=
  le_antisymm (roundMag_mono hd hd' h.le) (roundMag_mono hd' hd h.ge)

theorem two_pow_shiftOf_dvd_magBits (b : ℕ) : 2 ^ shiftOf (magBits b) 1 ∣ magBits b := by
  rcases Nat.eq_zero_or_pos (shiftOf (magBits b) 1) with h0 | hpos
  · rw [h0, Nat.pow_zero]
    exact Nat.one_dvd _
  · exact two_pow_dvd_magBits ((le_quotient hpos).trans_eq (Nat.div_one _))

/-- A magnitude rounds to its own bits: it is a whole number of its spacings, and no other bits spell it. -/
theorem roundMag_magBits {b : ℕ} (hb : b < infBits) : roundMag (magBits b) 1 = b := by
  obtain ⟨m, hm⟩ := two_pow_shiftOf_dvd_magBits b
  have hbits : shiftOf (magBits b) 1 * 2 ^ 52 + roundHalfEven (magBits b) (1 * 2 ^ shiftOf (magBits b) 1) = b := by
    apply magBits_strictMono.injective
    rw [magBits_binade significand_bounds.1 significand_bounds.2, Nat.one_mul]
    generalize shiftOf (magBits b) 1 = sh at hm
    rw [hm, Nat.mul_comm (2 ^ sh), roundHalfEven_exact m (Nat.two_pow_pos sh)]
  exact (congrArg (min · infBits) hbits).trans (min_eq_left hb.le)

/-- Without overflow the bits are the binades passed and the significand. -/
theorem roundMag_of_lt {num den : ℕ} (hfin : roundMag num den < infBits) :
    roundMag num den = shiftOf num den * 2 ^ 52 + roundHalfEven num (den * 2 ^ shiftOf num den) :=
  min_eq_left ((min_lt_iff.mp hfin).resolve_right (lt_irrefl _)).le

theorem cast_mul_two_pow (k sh : ℕ) : ((k * 2 ^ sh : ℕ) : ℚ) = k * 2 ^ sh := by
  rw [Nat.cast_mul, Nat.cast_pow, Nat.cast_ofNat]

/-- A distance from a quotient, counted in spacings of 2^sh. -/
theorem abs_mul_two_pow_sub (k : ℚ) (num den sh : ℕ) :
    |k * 2 ^ sh - num / den| = |k - num / (den * 2 ^ sh : ℕ)| * 2 ^ sh := by
  have hpow : (0 : ℚ) < 2 ^ sh := pow_pos zero_lt_two sh
  rw [cast_mul_two_pow, div_mul_eq_div_div]
  nth_rw 3 [← abs_of_pos hpow]
  rw [← abs_mul, sub_mul, div_mul_cancel₀ _ hpow.ne']

theorem half_le_div_two_pow_53_add_half {t q : ℚ} (h : 2 ^ 52 * t ≤ q) : 1 / 2 * t ≤ q / 2 ^ 53 + 1 / 2 := by
  linarith only [h]

section
variable {num den : ℕ} (hd : 0 < den) (hfin : roundMag num den < infBits)
include hd hfin

/-- `roundMag` spells a significand n with spacing 2^sh: n is the rounded quotient in that spacing, and even where the
bits are. -/
theorem exists_significand : ∃ n sh : ℕ, n = roundHalfEven num (den * 2 ^ sh) ∧
    (magBits (roundMag num den) : ℚ) = n * 2 ^ sh ∧ roundMag num den % 2 = n % 2 ∧
    (0 < sh → (2 : ℚ) ^ (52 + sh) ≤ num / den) := by
  refine ⟨_, shiftOf num den, rfl, ?_, ?_, fun h => ?_⟩
  · rw [magBits_roundMag hfin, cast_mul_two_pow]
  · rw [roundMag_of_lt hfin, Nat.add_mod, Nat.mul_mod]
    simp
  · rw [le_div_iff₀ (Nat.cast_pos.mpr hd)]
    exact_mod_cast (Nat.le_div_iff_mul_le hd).mp (le_quotient h)

/-- No magnitude is nearer to the quotient than the rounded one, and where another is as near the rounded one's bits
are even: in the spacing of the quotient's binade both are integers, and a magnitude below that binade is farther. -/
theorem magBits_roundMag_nearest (b : ℕ) :
    |(magBits (roundMag num den) : ℚ) - num / den| ≤ |(magBits b : ℚ) - num / den| ∧
      (magBits b ≠ magBits (roundMag num den) →
        |(magBits b : ℚ) - num / den| = |(magBits (roundMag num den) : ℚ) - num / den| →
        roundMag num den % 2 = 0) := by
  obtain ⟨n, sh, hn, hmag, hparity, hlow⟩ := exists_significand hd hfin
  have hpow : (0 : ℚ) < 2 ^ sh := pow_pos zero_lt_two sh
  have hden : 0 < den * 2 ^ sh := Nat.mul_pos hd (Nat.two_pow_pos sh)
  by_cases hdvd : 2 ^ sh ∣ magBits b
  · obtain ⟨k, hk⟩ := hdvd
    have hk' : (magBits b : ℚ) = k * 2 ^ sh := by rw [hk, Nat.mul_comm, cast_mul_two_pow]
    rw [hmag, hk', abs_mul_two_pow_sub, abs_mul_two_pow_sub, hparity, hn]
    refine ⟨mul_le_mul_of_nonneg_right (roundHalfEven_nearest num hden k) hpow.le, fun hne htie => ?_⟩
    refine roundHalfEven_even_of_tie num hden ?_ (mul_right_cancel₀ hpow.ne' htie)
    rintro rfl
    apply hne
    rw [hn] at hmag
    exact_mod_cast hk'.trans hmag.symm
  · have hsh : 0 < sh := Nat.pos_of_ne_zero fun h0 => hdvd (by rw [h0]; exact one_dvd _)
    have hbelow : magBits b < 2 ^ (52 + sh) := not_le.mp (mt two_pow_dvd_magBits hdvd)
    have hbelow' : (magBits b : ℚ) < 2 ^ (52 + sh) := by exact_mod_cast hbelow
    have hlow := hlow hsh
    have hstrict : |(magBits (roundMag num den) : ℚ) - num / den| < |(magBits b : ℚ) - num / den| := by
      calc |(magBits (roundMag num den) : ℚ) - num / den|
          ≤ |((2 ^ 52 : ℕ) : ℚ) * 2 ^ sh - num / den| := by
            rw [hmag, abs_mul_two_pow_sub, abs_mul_two_pow_sub, hn]
            exact mul_le_mul_of_nonneg_right (roundHalfEven_nearest num hden _) hpow.le
        _ = num / den - 2 ^ (52 + sh) := by
            rw [Nat.cast_pow, Nat.cast_ofNat, ← pow_add, abs_sub_comm, abs_of_nonneg (sub_nonneg.mpr hlow)]
        _ < num / den - magBits b := sub_lt_sub_left hbelow' _
        _ ≤ |(magBits b : ℚ) - num / den| := by
            rw [abs_sub_comm]
            exact le_abs_self _
    exact ⟨hstrict.le, fun _ htie => absurd htie.symm hstrict.ne⟩

/-- The error is half a spacing: half a unit, or 2^-53 of the quotient. -/
theorem abs_magBits_roundMag_sub_le :
    |(magBits (roundMag num den) : ℚ) - num / den| ≤ num / den / 2 ^ 53 + 1 / 2 := by
  obtain ⟨n, sh, hn, hmag, -, hlow⟩ := exists_significand hd hfin
  have hpow : (0 : ℚ) < 2 ^ sh := pow_pos zero_lt_two sh
  have hden : 0 < den * 2 ^ sh := Nat.mul_pos hd (Nat.two_pow_pos sh)
  have hhalf : |(n : ℚ) * 2 ^ sh - num / den| ≤ 1 / 2 * 2 ^ sh := by
    rw [abs_mul_two_pow_sub, hn]
    exact mul_le_mul_of_nonneg_right (abs_roundHalfEven_sub_le num hden) hpow.le
  rw [hmag]
  refine hhalf.trans ?_
  have hquot : (0 : ℚ) ≤ num / den := div_nonneg (Nat.cast_nonneg _) (Nat.cast_nonneg _)
  rcases Nat.eq_zero_or_pos sh with rfl | hsh
  · rw [pow_zero, mul_one]
    exact le_add_of_nonneg_left (div_nonneg hquot (by norm_num))
  · exact half_le_div_two_pow_53_add_half ((pow_add 2 52 sh).symm.trans_le (hlow hsh))

end

/-! ### The rounding of a real number -/

/-- The exponent and fraction bits of the binary64 nearest to |x|, ties to even. -/
def rndBits (x : ℚ) : ℕ := roundMag (|x| * unitScale).num.natAbs (|x| * unitScale).den

/-- The value of the binary64 nearest to x, ties to even. -/
def rnd (x : ℚ) : ℚ := (if x < 0 then -1 else 1) * (magBits (rndBits x) / unitScale)

theorem rndBits_eq {x : ℚ} {num den : ℕ} (hd : 0 < den) (h : |x| * unitScale = num / den) :
    rndBits x = roundMag num den := by
  have hd' : (den : ℚ) ≠ 0 := Nat.cast_ne_zero.mpr hd.ne'
  have hnonneg : 0 ≤ |x| * unitScale := by positivity
  have hnum : (((|x| * unitScale).num.natAbs : ℕ) : ℚ) = |x| * unitScale * (|x| * unitScale).den := by
    rw [Rat.mul_den_eq_num, Nat.cast_natAbs, abs_of_nonneg (Rat.num_nonneg.mpr hnonneg)]
  apply roundMag_congr (Rat.den_pos _) hd
  have hcross : (((|x| * unitScale).num.natAbs : ℕ) : ℚ) * den = num * (|x| * unitScale).den := by
    rw [hnum, h]
    field_simp
  exact_mod_cast hcross

/-- Every number is a quotient of units. -/
theorem exists_units (x : ℚ) : ∃ num den : ℕ, 0 < den ∧ |x| * unitScale = num / den := by
  have hnonneg : 0 ≤ |x| * unitScale := by positivity
  refine ⟨(|x| * unitScale).num.natAbs, (|x| * unitScale).den, Rat.den_pos _, ?_⟩
  rw [Nat.cast_natAbs, abs_of_nonneg (Rat.num_nonneg.mpr hnonneg), Rat.num_div_den]

theorem rndBits_mono {x y : ℚ} (h : |x| ≤ |y|) : rndBits x ≤ rndBits y := by
  obtain ⟨num, den, hd, hx⟩ := exists_units x
  obtain ⟨num', den', hd', hy⟩ := exists_units y
  rw [rndBits_eq hd hx, rndBits_eq hd' hy]
  apply roundMag_mono hd hd'
  have hle : (num / den : ℚ) ≤ num' / den' := by
    rw [← hx, ← hy]
    exact mul_le_mul_of_nonneg_right h unitScale_cast_pos.le
  rw [div_le_div_iff₀ (Nat.cast_pos.mpr hd) (Nat.cast_pos.mpr hd')] at hle
  exact_mod_cast hle

theorem rndBits_neg (x : ℚ) : rndBits (-x) = rndBits x := by rw [rndBits, rndBits, abs_neg]

theorem rndBits_zero : rndBits 0 = 0 := by
  rw [rndBits_eq (num := 0) (den := 1) one_pos (by simp), roundMag_zero]

theorem rndBits_lt (x : ℚ) : rndBits x < 2 ^ 63 := roundMag_lt _ _

theorem magBits_zero : magBits 0 = 0 := rfl

theorem rnd_of_nonneg {x : ℚ} (h : 0 ≤ x) : rnd x = magBits (rndBits x) / unitScale := by
  rw [rnd, if_neg (not_lt.mpr h), one_mul]

theorem rnd_neg (x : ℚ) : rnd (-x) = -rnd x := by
  rcases lt_trichotomy x 0 with h | rfl | h
  · have h' : ¬ -x < 0 := (neg_pos.mpr h).not_gt
    rw [rnd, rnd, if_pos h, if_neg h', rndBits_neg, one_mul, neg_one_mul, neg_neg]
  · rw [neg_zero, rnd, rndBits_zero, magBits_zero]
    simp
  · rw [rnd, rnd, if_neg h.not_gt, if_pos (neg_lt_zero.mpr h), rndBits_neg, one_mul, neg_one_mul]

theorem rnd_nonneg {x : ℚ} (h : 0 ≤ x) : 0 ≤ rnd x := by
  rw [rnd_of_nonneg h]
  positivity

theorem rnd_le_rnd_of_nonneg {x y : ℚ} (hx : 0 ≤ x) (h : x ≤ y) : rnd x ≤ rnd y := by
  have hy := hx.trans h
  rw [rnd_of_nonneg hx, rnd_of_nonneg hy, div_le_div_iff_of_pos_right unitScale_cast_pos, Nat.cast_le]
  apply magBits_strictMono.monotone (rndBits_mono _)
  rwa [abs_of_nonneg hx, abs_of_nonneg hy]

/-- Rounding keeps the order (`42_setters.md` section 1). -/
theorem rnd_mono : Monotone rnd := by
  intro x y h
  rcases le_total 0 x with hx | hx
  · exact rnd_le_rnd_of_nonneg hx h
  · have hx' : 0 ≤ -x := neg_nonneg.mpr hx
    rcases le_total 0 y with hy | hy
    · have hnonpos : rnd x ≤ 0 := neg_nonneg.mp ((rnd_nonneg hx').trans_eq (rnd_neg x))
      exact hnonpos.trans (rnd_nonneg hy)
    · have hneg := rnd_le_rnd_of_nonneg (neg_nonneg.mpr hy) (neg_le_neg h)
      rwa [rnd_neg, rnd_neg, neg_le_neg_iff] at hneg

/-- A distance, counted in units. -/
theorem abs_div_unitScale_sub (m y : ℚ) : |m / unitScale - y| = |m - y * unitScale| / unitScale := by
  nth_rw 3 [← abs_of_pos unitScale_cast_pos]
  rw [← abs_div, sub_div, mul_div_cancel_right₀ _ unitScale_ne_zero]

/-- The error is that of the magnitudes. -/
theorem abs_rnd_sub (x : ℚ) : |rnd x - x| = |(magBits (rndBits x) : ℚ) / unitScale - (|x|)| := by
  rcases lt_or_ge x 0 with h | h
  · rw [rnd, if_pos h, abs_of_neg h, neg_one_mul, ← neg_add', abs_neg, sub_neg_eq_add]
  · rw [rnd_of_nonneg h, abs_of_nonneg h]

/-! ### Numbers that a binary64 spells -/

/-- The exponent of `unitScale` under variables, so that the power is not written out. -/
theorem exists_unitScale_eq_mul {k : ℕ} (hk : k ≤ 1074) : ∃ j ≤ 1074, (unitScale : ℚ) = 2 ^ k * 2 ^ j := by
  obtain ⟨n, hn, hscale⟩ : ∃ n, n = 1074 ∧ unitScale = 2 ^ n := ⟨1074, rfl, by unfold unitScale; exact Eq.refl _⟩
  exact ⟨n - k, (Nat.sub_le n k).trans_eq hn,
    by rw [hscale, Nat.cast_pow, Nat.cast_ofNat, ← pow_add, Nat.add_sub_cancel' (hk.trans_eq hn.symm)]⟩

/-- A dyadic number of at most 53 bits is its own rounding. -/
theorem rnd_dyadic {n k : ℕ} (hn : n < 2 ^ 53) (hk : k ≤ 1074) : rnd (n / 2 ^ k) = n / 2 ^ k := by
  obtain ⟨j, hj, hscale⟩ := exists_unitScale_eq_mul hk
  have hnonneg : (0 : ℚ) ≤ n / 2 ^ k := by positivity
  have hx : |(n / 2 ^ k : ℚ)| * unitScale = (n * 2 ^ j : ℕ) / (1 : ℕ) := by
    rw [abs_of_nonneg hnonneg, hscale, ← mul_assoc, div_mul_cancel₀ _ (pow_ne_zero _ two_ne_zero), Nat.cast_one, div_one,
      cast_mul_two_pow]
  rw [rnd_of_nonneg hnonneg, rndBits_eq one_pos hx, (roundMag_mul_two_pow hn (by lia)).2, hscale, cast_mul_two_pow,
    mul_div_mul_right _ _ (pow_ne_zero _ two_ne_zero)]

theorem rnd_natCast {n : ℕ} (hn : n < 2 ^ 53) : rnd n = n := by
  simpa using rnd_dyadic (k := 0) hn (by decide)

theorem rnd_zero : rnd 0 = 0 := by exact_mod_cast rnd_natCast (n := 0) (by decide)

/-- A quotient of 53 bits times 2^j has spacing 2^j. -/
theorem shiftOf_mul_two_pow {num den j : ℕ} (hd : 0 < den) (hlo : 2 ^ 52 * den ≤ num) (hhi : num < 2 ^ 53 * den) :
    shiftOf (num * 2 ^ j) den = j := by
  have hpos := Nat.two_pow_pos j
  apply le_antisymm
  · apply shiftOf_le
    rw [Nat.div_lt_iff_lt_mul hd, Nat.pow_add, Nat.mul_right_comm (2 ^ 53)]
    exact Nat.mul_lt_mul_of_pos_right hhi hpos
  · have hq : 2 ^ (52 + j) ≤ num * 2 ^ j / den := by
      rw [Nat.le_div_iff_mul_le hd, Nat.pow_add, Nat.mul_right_comm]
      exact Nat.mul_le_mul_right _ hlo
    exact Nat.le_sub_of_add_le' ((Nat.le_log2 (lt_of_lt_of_le (Nat.two_pow_pos _) hq).ne').mpr hq)

/-- Where the spacing is 2^-k, the rounding is that of the quotient counted in spacings. -/
theorem rnd_eq_roundHalfEven {num den k : ℕ} (hk : k ≤ 1074) (hd : 0 < den) (hlo : 2 ^ 52 * den ≤ num * 2 ^ k)
    (hhi : num * 2 ^ k < 2 ^ 53 * den) : rnd (num / den) = roundHalfEven (num * 2 ^ k) den / 2 ^ k := by
  obtain ⟨j, hj, hscale⟩ := exists_unitScale_eq_mul hk
  have hnonneg : (0 : ℚ) ≤ num / den := by positivity
  have hx : |(num / den : ℚ)| * unitScale = (num * 2 ^ k * 2 ^ j : ℕ) / den := by
    rw [abs_of_nonneg hnonneg, hscale, cast_mul_two_pow, cast_mul_two_pow, div_mul_eq_mul_div, mul_assoc]
  have hshift := shiftOf_mul_two_pow (j := j) hd hlo hhi
  have hfin : roundMag (num * 2 ^ k * 2 ^ j) den < infBits := roundMag_lt_infBits (by lia)
  rw [rnd_of_nonneg hnonneg, rndBits_eq hd hx, magBits_roundMag hfin, hshift,
    roundHalfEven_mul_right _ _ (Nat.two_pow_pos j), hscale, cast_mul_two_pow,
    mul_div_mul_right _ _ (pow_ne_zero _ two_ne_zero)]

/-! ### Patterns and their values -/

theorem val_pack (neg : Bool) {b : ℕ} (hb : b < 2 ^ 63) :
    val (pack neg b) = (if neg then -1 else 1) * (magBits b / unitScale) := by
  rw [val_eq_units, units, fSign_pack, mag_pack neg hb]
  cases neg <;> simp [neg_div]

theorem val_eq_sign_mul (r : Real64) : val r = (if fSign r then -1 else 1) * (mag r / unitScale) := by
  rw [val_eq_units, units]
  cases fSign r <;> simp [neg_div]

theorem abs_val (r : Real64) : |val r| = mag r / unitScale := by
  have hmag : |(mag r / unitScale : ℚ)| = mag r / unitScale := abs_of_nonneg (by positivity)
  rw [val_eq_sign_mul]
  cases fSign r <;> simp [hmag]

/-- The sign bit of a pattern whose value is not zero. -/
theorem fSign_eq_decide {r : Real64} (h : val r ≠ 0) : fSign r = decide (val r < 0) := by
  have hpos : 0 < (mag r / unitScale : ℚ) := by rw [← abs_val]; exact abs_pos.mpr h
  rw [val_eq_sign_mul]
  cases fSign r <;> simp [hpos, hpos.le]

theorem rndBits_val {c : Real64} (hc : isFinite c = true) : rndBits (val c) = c.toNat % 2 ^ 63 := by
  have hx : |val c| * unitScale = (magBits (c.toNat % 2 ^ 63) : ℕ) / (1 : ℕ) := by
    rw [abs_val, div_mul_cancel₀ _ unitScale_ne_zero, mag_eq_magBits, Nat.cast_one, div_one]
  rw [rndBits_eq one_pos hx, roundMag_magBits ((isFinite_iff c).mp hc)]

/-- Up to the largest finite number rounding does not overflow. -/
theorem rndBits_lt_infBits {x : ℚ} (h : |x| ≤ val maxFinite) : rndBits x < infBits := by
  have hmax : rndBits (val maxFinite) < infBits := by
    rw [rndBits_val (by decide)]
    decide
  exact lt_of_le_of_lt (rndBits_mono (h.trans (le_abs_self _))) hmax

theorem two_pow_53_le_maxFinite : (2 ^ 53 : ℚ) ≤ val maxFinite := by
  have hval : val 0x4340000000000000#64 = 2 ^ 53 := by
    have hexp : fExp 0x4340000000000000#64 = 1076 := by decide
    have hfrac : fFrac 0x4340000000000000#64 = 0 := by decide
    have hsign : fSign 0x4340000000000000#64 = false := by decide
    rw [val, hexp, hfrac, hsign]
    norm_num
  rw [← hval]
  exact val_le_val_of_toNat_le (by decide) (by decide)

/-- What a rounding errs by, relative to its argument: the spacing of 53-bit significands. -/
def relErr : ℚ := 1 / 2 ^ 52

theorem two_pow_52_le_unitScale : (2 ^ 52 : ℚ) ≤ unitScale := by
  obtain ⟨j, -, hscale⟩ := exists_unitScale_eq_mul (k := 52) (by decide)
  rw [hscale]
  exact le_mul_of_one_le_right (by positivity) (one_le_pow₀ one_le_two)

/-- Half a spacing of t's binade, or half a unit, is at most 2^-52 of t. -/
theorem div_two_pow_53_add_half_le {m t : ℚ} (hm : m ≤ t) (ht : 2 ^ 52 ≤ t) :
    m / 2 ^ 53 + 1 / 2 ≤ t * (1 / 2 ^ 52) := by linarith only [hm, ht]

/-- The error is half a spacing, which below M is at most M / 2^53 or half a unit. -/
theorem abs_rnd_sub_le {x M : ℚ} (hx : |x| ≤ M) (hM : 1 ≤ M) (hM' : M ≤ 2 ^ 53) : |rnd x - x| ≤ M * relErr := by
  have hfin := rndBits_lt_infBits (hx.trans (hM'.trans two_pow_53_le_maxFinite))
  obtain ⟨num, den, hd, hunits⟩ := exists_units x
  rw [rndBits_eq hd hunits] at hfin
  have herror := abs_magBits_roundMag_sub_le hd hfin
  rw [← hunits, ← rndBits_eq hd hunits] at herror
  have hxM : |x| * unitScale ≤ M * unitScale := mul_le_mul_of_nonneg_right hx unitScale_cast_pos.le
  have hM1 : 2 ^ 52 ≤ M * unitScale := two_pow_52_le_unitScale.trans (le_mul_of_one_le_left unitScale_cast_pos.le hM)
  rw [abs_rnd_sub, abs_div_unitScale_sub, div_le_iff₀ unitScale_cast_pos, relErr, mul_right_comm]
  exact herror.trans (div_two_pow_53_add_half_le hxM hM1)

/-! ### Rounded patterns (`00_scope.md` R7) -/

/-- r spells the rounding of x: its bits, and x's sign where x is not zero. -/
def IsRounded (r : Real64) (x : ℚ) : Prop :=
  ∃ neg, r = pack neg (rndBits x) ∧ (x ≠ 0 → neg = decide (x < 0))

theorem isRounded_pack {x : ℚ} {neg : Bool} {num den : ℕ} (hd : 0 < den) (hx : |x| * unitScale = num / den)
    (hneg : x ≠ 0 → neg = decide (x < 0)) : IsRounded (pack neg (roundMag num den)) x :=
  ⟨neg, by rw [rndBits_eq hd hx], hneg⟩

section
variable {r : Real64} {x : ℚ} (h : IsRounded r x)
include h

theorem IsRounded.val_eq : val r = rnd x := by
  obtain ⟨neg, rfl, hneg⟩ := h
  rw [val_pack neg (rndBits_lt x), rnd]
  rcases eq_or_ne x 0 with rfl | hx
  · rw [rndBits_zero, magBits_zero]
    simp
  · simp [hneg hx]

theorem IsRounded.abs_val_eq : |val r| = magBits (rndBits x) / unitScale := by
  obtain ⟨neg, rfl, -⟩ := h
  rw [abs_val, mag_pack neg (rndBits_lt x)]

theorem IsRounded.finite (hx : |x| ≤ val maxFinite) : isFinite r = true := by
  obtain ⟨neg, rfl, -⟩ := h
  exact isFinite_pack neg (rndBits_lt_infBits hx)

theorem IsRounded.fFrac_mod_two : fFrac r % 2 = rndBits x % 2 := by
  obtain ⟨neg, rfl, -⟩ := h
  rw [fFrac_pack neg (rndBits_lt x), Nat.mod_mod_of_dvd _ (by decide)]

end

/-- `magBits_roundMag_nearest` with a magnitude's value in place of its units. -/
theorem magBits_rndBits_nearest {x : ℚ} (hfin : rndBits x < infBits) (b : ℕ) :
    |(magBits (rndBits x) : ℚ) / unitScale - (|x|)| ≤ |(magBits b : ℚ) / unitScale - (|x|)| ∧
      (magBits b ≠ magBits (rndBits x) →
        |(magBits b : ℚ) / unitScale - (|x|)| = |(magBits (rndBits x) : ℚ) / unitScale - (|x|)| →
        rndBits x % 2 = 0) := by
  obtain ⟨num, den, hd, hx⟩ := exists_units x
  have hbits := rndBits_eq hd hx
  rw [hbits] at hfin ⊢
  obtain ⟨hnear, htie⟩ := magBits_roundMag_nearest hd hfin b
  rw [abs_div_unitScale_sub, abs_div_unitScale_sub, hx, div_le_div_iff_of_pos_right unitScale_cast_pos,
    div_left_inj' unitScale_ne_zero]
  exact ⟨hnear, htie⟩

/-- A rounded pattern is nearest to the exact result, ties to even: a pattern of the other sign is at least as far as
the one of its magnitude and x's sign. -/
theorem IsRounded.nearest {r : Real64} {x : ℚ} (h : IsRounded r x) : Nearest r x := by
  intro hx
  have hr : |val r - x| = |(|val r|) - (|x|)| := by rw [h.abs_val_eq, h.val_eq, abs_rnd_sub]
  have hnear (c : Real64) := magBits_rndBits_nearest (rndBits_lt_infBits hx) (c.toNat % 2 ^ 63)
  simp only [← mag_eq_magBits, ← abs_val, ← h.abs_val_eq] at hnear
  refine ⟨h.finite hx, fun c _ => ?_, fun c _ htie hne => ?_⟩
  · rw [hr]
    exact (hnear c).1.trans (abs_abs_sub_abs_le _ _)
  · obtain ⟨hle, heven⟩ := hnear c
    have hmag : |(|val c|) - (|x|)| = |(|val r|) - (|x|)| :=
      le_antisymm ((abs_abs_sub_abs_le _ _).trans (htie.trans hr).le) hle
    rw [h.fFrac_mod_two]
    refine heven (fun hsame => ?_) hmag
    have habs : |val c| = |val r| := by rw [abs_val, hsame, h.abs_val_eq]
    have hc : val c = -val r := (abs_eq_abs.mp habs).resolve_left hne
    have hzero : val r = 0 := by
      rcases abs_eq_abs.mp (hc ▸ htie) with h0 | h0
      · grind
      · have hx0 : x = 0 := by grind
        rw [h.val_eq, hx0, rnd_zero]
    exact hne (by rw [hc, hzero, neg_zero])

/-! ### The four operations -/

theorem isRounded_roundSum (x y : ℤ) (bothNeg : Bool) :
    IsRounded (roundSum x y bothNeg) ((x : ℚ) / unitScale + y / unitScale) := by
  have hsum : (x : ℚ) / unitScale + y / unitScale = ((x + y : ℤ) : ℚ) / unitScale := by
    push_cast
    ring
  rw [hsum, roundSum]
  apply isRounded_pack one_pos
  · rw [abs_div, abs_of_pos unitScale_cast_pos, div_mul_cancel₀ _ unitScale_ne_zero, Nat.cast_natAbs, Nat.cast_one,
      div_one, Int.cast_abs]
  · intro hne
    have hne' : ¬ x + y = 0 := fun h0 => hne (by rw [h0, Int.cast_zero, zero_div])
    rw [if_neg hne', decide_eq_decide, div_lt_iff₀ unitScale_cast_pos, zero_mul, Int.cast_lt_zero]

/-- A product is negative where exactly one factor is. -/
theorem decide_mul_neg {p q : ℚ} (hp : p ≠ 0) (hq : q ≠ 0) :
    decide (p * q < 0) = xor (decide (p < 0)) (decide (q < 0)) := by
  rcases lt_or_gt_of_ne hp with hp | hp <;> rcases lt_or_gt_of_ne hq with hq | hq
  · simp [hp, hq, (mul_pos_of_neg_of_neg hp hq).not_gt]
  · simp [hp, hq.not_gt, mul_neg_of_neg_of_pos hp hq]
  · simp [hp.not_gt, hq, mul_neg_of_pos_of_neg hp hq]
  · simp [hp.not_gt, hq.not_gt, (mul_pos hp hq).not_gt]

section
variable {a b : Real64} (ha : isFinite a = true) (hb : isFinite b = true)
include ha hb

theorem isRounded_fadd : IsRounded (fadd a b) (val a + val b) := by
  rw [fadd_finite ha hb, val_eq_units a, val_eq_units b]
  exact isRounded_roundSum _ _ _

theorem isRounded_fsub : IsRounded (fsub a b) (val a - val b) := by
  rw [fsub_finite ha hb, val_eq_units a, val_eq_units b, sub_eq_add_neg, ← neg_div, ← Int.cast_neg]
  exact isRounded_roundSum _ _ _

theorem isRounded_fmul : IsRounded (fmul a b) (val a * val b) := by
  rw [fmul_finite ha hb]
  apply isRounded_pack unitScale_pos
  · rw [abs_mul, abs_val, abs_val, Nat.cast_mul]
    have := unitScale_ne_zero
    field_simp
  · intro hne
    obtain ⟨ha0, hb0⟩ := mul_ne_zero_iff.mp hne
    rw [fSign_eq_decide ha0, fSign_eq_decide hb0, decide_mul_neg ha0 hb0]

theorem isRounded_fdiv (h0 : val b ≠ 0) : IsRounded (fdiv a b) (val a / val b) := by
  have hmag : (0 : ℚ) < mag b := by
    have : 0 < |val b| := abs_pos.mpr h0
    rwa [abs_val, lt_div_iff₀ unitScale_cast_pos, zero_mul] at this
  have hmag' : 0 < mag b := Nat.cast_pos.mp hmag
  rw [fdiv_finite ha hb hmag'.ne']
  apply isRounded_pack hmag'
  · rw [abs_div, abs_val, abs_val, Nat.cast_mul]
    have := unitScale_ne_zero
    field_simp
  · intro hne
    obtain ⟨ha0, -⟩ := div_ne_zero_iff.mp hne
    rw [fSign_eq_decide ha0, fSign_eq_decide h0, div_eq_mul_inv, decide_mul_neg ha0 (inv_ne_zero h0)]
    simp only [inv_lt_zero]

end

/-- Settles O26: each operation spells the rounding of its exact result. -/
theorem arithmeticIsCorrectlyRounded : Obligations.ArithmeticIsCorrectlyRounded := by
  unfold Obligations.ArithmeticIsCorrectlyRounded
  exact fun a b ha hb => ⟨(isRounded_fadd ha hb).nearest, (isRounded_fsub ha hb).nearest,
    (isRounded_fmul ha hb).nearest, fun h0 => (isRounded_fdiv ha hb h0).nearest⟩

end Sys2Proof.Proofs
end

section
/-! PROOF. The field transforms as functions of real numbers (`30_encoding.md` R50 to R54, `42_setters.md` R75): one
rounding at each written operation, then the truncation. Order, ends and loss follow from what `rnd` keeps. -/

namespace Sys2Proof.Proofs

-- One declaration after the other: checking the text then needs less memory.
set_option Elab.async false

open Sys2Proof.Machine Sys2Proof.Claims

/-! ### Rounding between bounds -/

theorem le_rnd_of_dyadic_le {n k : ℕ} {x : ℚ} (h : n / 2 ^ k ≤ x) (hn : n < 2 ^ 53) (hk : k ≤ 1074) :
    n / 2 ^ k ≤ rnd x := by
  rw [← rnd_dyadic hn hk]
  exact rnd_mono h

theorem rnd_le_of_le_dyadic {n k : ℕ} {x : ℚ} (h : x ≤ n / 2 ^ k) (hn : n < 2 ^ 53) (hk : k ≤ 1074) :
    rnd x ≤ n / 2 ^ k := by
  rw [← rnd_dyadic hn hk]
  exact rnd_mono h

theorem rnd_le_natCast {n : ℕ} {x : ℚ} (h : x ≤ n) (hn : n < 2 ^ 53) : rnd x ≤ n := by
  rw [← rnd_natCast hn]
  exact rnd_mono h

section
variable {r : Real64} {x : ℚ} (h : IsRounded r x) (hx : |x| ≤ 2 ^ 53)
include h hx

theorem IsRounded.finite_of_le : isFinite r = true := h.finite (hx.trans two_pow_53_le_maxFinite)

/-- Truncating a rounded number at or above 0 is taking its floor. -/
theorem IsRounded.ftrunc_eq (h0 : 0 ≤ x) : ftrunc r = ⌊rnd x⌋ := by
  rw [ftrunc_eq_floor (h.finite_of_le hx) (h.val_eq ▸ rnd_nonneg h0), h.val_eq]

end

/-! ### What the encoders truncate -/

/-- `(t + 50) * 5` (R50). -/
def encTempVal (x : ℚ) : ℚ := rnd (rnd (x + 50) * 5)

/-- `h / 100 * 127` (R51). -/
def encHumVal (x : ℚ) : ℚ := rnd (rnd (x / 100) * 127)

/-- C_GAS (`00_scope.md` R11). -/
def gasFactor : ℚ := 750588209771053 / 2 ^ 44

theorem gasFactor_pos : 0 < gasFactor := by norm_num [gasFactor]

/-- `g * 42.666` (R52). -/
def encGasVal (x : ℚ) : ℚ := rnd (x * gasFactor)

/-- `(x + 180) * 10000` (R53, R54). -/
def encGpsVal (x : ℚ) : ℚ := rnd (rnd (x + 180) * 10000)

/-- What an encoder of the form `trunc((x + c) * k)` computes, for a sum of at most A. -/
theorem ftrunc_fmul_fadd {x c k : Real64} {cVal kVal : ℚ} {A : ℕ} (hx : isFinite x = true)
    (hc : isFinite c = true ∧ val c = cVal) (hk : isFinite k = true ∧ val k = kVal) (h0 : 0 ≤ val x + cVal)
    (hA : val x + cVal ≤ A) (hk0 : 0 ≤ kVal) (hprod : A * kVal ≤ 2 ^ 53) (hA' : A < 2 ^ 53) :
    ftrunc (fmul (fadd x c) k) = ⌊rnd (rnd (val x + cVal) * kVal)⌋ := by
  obtain ⟨hcfin, rfl⟩ := hc
  obtain ⟨hkfin, rfl⟩ := hk
  have hsum := isRounded_fadd hx hcfin
  have habs : |val x + val c| ≤ 2 ^ 53 := by
    rw [abs_of_nonneg h0]
    exact hA.trans (by exact_mod_cast hA'.le)
  have hprod0 : 0 ≤ val (fadd x c) * val k := mul_nonneg (hsum.val_eq ▸ rnd_nonneg h0) hk0
  have hprodle : val (fadd x c) * val k ≤ 2 ^ 53 := by
    refine le_trans (mul_le_mul_of_nonneg_right ?_ hk0) hprod
    rw [hsum.val_eq]
    exact rnd_le_natCast hA hA'
  rw [(isRounded_fmul (hsum.finite_of_le habs) hkfin).ftrunc_eq (by rwa [abs_of_nonneg hprod0]) hprod0, hsum.val_eq]

theorem realIn_iff {lo hi : ℚ} {x : Real64} :
    realIn lo hi x = true ↔ isFinite x = true ∧ lo ≤ val x ∧ val x ≤ hi := by
  simp [realIn, and_assoc]

theorem tempOk_iff {t : Real64} : tempOk t = true ↔ isFinite t = true ∧ -50 ≤ val t ∧ val t ≤ tempTop := by
  rw [tempOk_eq_realIn, realIn_iff]

theorem humOk_iff {h : Real64} : humOk h = true ↔ isFinite h = true ∧ 0 ≤ val h ∧ val h ≤ 100 := by
  rw [humOk_eq_realIn, realIn_iff]

theorem gasOk_iff {g : Real64} : gasOk g = true ↔ isFinite g = true ∧ 0 ≤ val g ∧ val g ≤ 3 := by
  rw [gasOk_eq_realIn, realIn_iff]

theorem gpsOk_iff {x : Real64} : gpsOk x = true ↔ isFinite x = true ∧ -180 ≤ val x ∧ val x ≤ 180 := by
  rw [gpsOk_eq_realIn, realIn_iff]

theorem encTemp_eq_floor {t : Real64} (h : tempOk t = true) : encTemp t = ⌊encTempVal (val t)⌋ := by
  obtain ⟨hfin, hlo, hhi⟩ := tempOk_iff.mp h
  obtain ⟨h50, h5, -⟩ := val_exact_factors
  exact ftrunc_fmul_fadd (A := 205) hfin ⟨by decide, h50⟩ ⟨by decide, h5⟩ (neg_le_iff_add_nonneg.mp hlo)
    ((add_le_add_left hhi _).trans (by norm_num [tempTop])) (by norm_num) (by norm_num) (by decide)

theorem encGps_eq_floor {x : Real64} (h : gpsOk x = true) : encGps x = ⌊encGpsVal (val x)⌋ := by
  obtain ⟨hfin, hlo, hhi⟩ := gpsOk_iff.mp h
  obtain ⟨-, -, -, -, h180, h10000⟩ := val_exact_factors
  exact ftrunc_fmul_fadd (A := 360) hfin ⟨by decide, h180⟩ ⟨by decide, h10000⟩ (neg_le_iff_add_nonneg.mp hlo)
    ((add_le_add_left hhi _).trans (by norm_num)) (by norm_num) (by norm_num) (by decide)

theorem encHum_eq_floor {h : Real64} (hok : humOk h = true) : encHum h = ⌊encHumVal (val h)⌋ := by
  obtain ⟨hfin, hlo, hhi⟩ := humOk_iff.mp hok
  obtain ⟨-, -, h100, h127, -⟩ := val_exact_factors
  have hquot := isRounded_fdiv hfin (show isFinite c100 = true by decide) (by rw [h100]; norm_num)
  rw [h100] at hquot
  have hquot0 : 0 ≤ val h / 100 := by positivity
  have hone : val h / 100 ≤ (1 : ℕ) := by rwa [Nat.cast_one, div_le_one (by norm_num)]
  have hquotfin := hquot.finite_of_le (by rw [abs_of_nonneg hquot0]; exact hone.trans (by norm_num))
  have hround := rnd_le_natCast hone (by decide)
  have hround0 := rnd_nonneg hquot0
  have hprod := isRounded_fmul hquotfin (show isFinite c127 = true by decide)
  rw [h127, hquot.val_eq] at hprod
  have hprod0 : 0 ≤ rnd (val h / 100) * 127 := by positivity
  rw [encHum, hprod.ftrunc_eq _ hprod0, encHumVal]
  rw [abs_of_nonneg hprod0]
  exact (mul_le_mul_of_nonneg_right hround (by norm_num)).trans (by norm_num)

theorem encGas_eq_floor {g : Real64} (h : gasOk g = true) : encGas g = ⌊encGasVal (val g)⌋ := by
  obtain ⟨hfin, hlo, hhi⟩ := gasOk_iff.mp h
  obtain ⟨-, hgas⟩ := val_inexact_constants
  have hprod := isRounded_fmul hfin (show isFinite cGas = true by decide)
  rw [hgas, ← gasFactor] at hprod
  have hprod0 : 0 ≤ val g * gasFactor := mul_nonneg hlo gasFactor_pos.le
  rw [encGas, hprod.ftrunc_eq _ hprod0, encGasVal]
  rw [abs_of_nonneg hprod0]
  exact (mul_le_mul_of_nonneg_right hhi gasFactor_pos.le).trans (by norm_num [gasFactor])

/-! ### Order (`42_setters.md` section 1) -/

theorem encTempVal_mono : Monotone encTempVal := fun _ _ h =>
  rnd_mono (mul_le_mul_of_nonneg_right (rnd_mono (add_le_add_left h _)) (by norm_num))

theorem encHumVal_mono : Monotone encHumVal := fun _ _ h =>
  rnd_mono (mul_le_mul_of_nonneg_right (rnd_mono (div_le_div_of_nonneg_right h (by norm_num))) (by norm_num))

theorem encGasVal_mono : Monotone encGasVal := fun _ _ h =>
  rnd_mono (mul_le_mul_of_nonneg_right h gasFactor_pos.le)

theorem encGpsVal_mono : Monotone encGpsVal := fun _ _ h =>
  rnd_mono (mul_le_mul_of_nonneg_right (rnd_mono (add_le_add_left h _)) (by norm_num))

/-- Settles O32: each encoder is a composition of roundings, steps of a positive factor, and the floor. -/
theorem encodersAreMonotone : Obligations.EncodersAreMonotone := by
  unfold Obligations.EncodersAreMonotone
  intro x y h
  obtain ⟨-, -, hunits⟩ := fle_true h
  have hval : val x ≤ val y := (val_le_val_iff x y).mpr hunits
  refine ⟨fun hx hy => ?_, fun hx hy => ?_, fun hx hy => ?_, fun hx hy => ?_⟩
  · rw [encTemp_eq_floor hx, encTemp_eq_floor hy]
    exact Int.floor_mono (encTempVal_mono hval)
  · rw [encHum_eq_floor hx, encHum_eq_floor hy]
    exact Int.floor_mono (encHumVal_mono hval)
  · rw [encGas_eq_floor hx, encGas_eq_floor hy]
    exact Int.floor_mono (encGasVal_mono hval)
  · rw [encGps_eq_floor hx, encGps_eq_floor hy]
    exact Int.floor_mono (encGpsVal_mono hval)

/-! ### The ends of the domains (`42_setters.md` section 1) -/

/-- A rounding of a number between n and a dyadic number below n + 1 is truncated to n. -/
theorem floor_rnd_eq {x : ℚ} {n m k : ℕ} (hlo : n ≤ x) (hhi : x ≤ m / 2 ^ k) (hmk : m < (n + 1) * 2 ^ k)
    (hm : m < 2 ^ 53) (hk : k ≤ 1074) : ⌊rnd x⌋ = n := by
  have hpow : (0 : ℚ) < 2 ^ k := by positivity
  have hn : n < 2 ^ 53 := by
    have hnm : (n * 2 ^ k : ℚ) ≤ m := (le_div_iff₀ hpow).mp (hlo.trans hhi)
    have hnm' : n * 2 ^ k ≤ m := by exact_mod_cast hnm
    exact lt_of_le_of_lt ((Nat.le_mul_of_pos_right n (Nat.two_pow_pos k)).trans hnm') hm
  rw [Int.floor_eq_iff]
  refine ⟨?_, lt_of_le_of_lt (rnd_le_of_le_dyadic hhi hm hk) ?_⟩
  · rw [Int.cast_natCast, ← rnd_natCast hn]
    exact rnd_mono hlo
  · rw [div_lt_iff₀ hpow]
    exact_mod_cast hmk

/-- The same for a product whose first factor is itself rounded, between two dyadic numbers lo and hi. -/
theorem floor_rnd_rnd_mul {y c : ℚ} {n lo hi factor k : ℕ} (hlo : lo / 2 ^ k ≤ y) (hhi : y ≤ hi / 2 ^ k)
    (hc : c = factor) (hn : n * 2 ^ k ≤ lo * factor ∧ hi * factor < (n + 1) * 2 ^ k)
    (hfits : lo < 2 ^ 53 ∧ hi < 2 ^ 53 ∧ hi * factor < 2 ^ 53 ∧ k ≤ 1074) : ⌊rnd (rnd y * c)⌋ = n := by
  obtain ⟨hlofits, hhifits, hprodfits, hk⟩ := hfits
  obtain ⟨hnlo, hnhi⟩ := hn
  have hpow : (0 : ℚ) < 2 ^ k := by positivity
  have hnlo' : (n * 2 ^ k : ℚ) ≤ lo * factor := by exact_mod_cast hnlo
  have hfactor : (0 : ℚ) ≤ factor := Nat.cast_nonneg _
  rw [hc]
  refine floor_rnd_eq (m := hi * factor) (k := k) ?_ ?_ hnhi hprodfits hk
  · calc (n : ℚ) ≤ lo / 2 ^ k * factor := by rwa [div_mul_eq_mul_div, le_div_iff₀ hpow]
      _ ≤ rnd y * factor := mul_le_mul_of_nonneg_right (le_rnd_of_dyadic_le hlo hlofits hk) hfactor
  · calc rnd y * factor ≤ hi / 2 ^ k * factor :=
          mul_le_mul_of_nonneg_right (rnd_le_of_le_dyadic hhi hhifits hk) hfactor
      _ = (hi * factor : ℕ) / 2 ^ k := by
          push_cast
          ring

theorem encTempVal_lo : encTempVal (-50) = 0 := by
  rw [encTempVal, neg_add_cancel, rnd_zero, zero_mul, rnd_zero]

theorem encHumVal_lo : encHumVal 0 = 0 := by
  rw [encHumVal, zero_div, rnd_zero, zero_mul, rnd_zero]

theorem encGasVal_lo : encGasVal 0 = 0 := by rw [encGasVal, zero_mul, rnd_zero]

theorem encGpsVal_lo : encGpsVal (-180) = 0 := by
  rw [encGpsVal, neg_add_cancel, rnd_zero, zero_mul, rnd_zero]

theorem floor_encTempVal_hi : ⌊encTempVal tempTop⌋ = 1023 :=
  floor_rnd_rnd_mul (lo := 1637) (hi := 1638) (k := 3) (factor := 5) (by norm_num [tempTop]) (by norm_num [tempTop])
    (by norm_num) (by decide) (by decide)

theorem floor_encHumVal_hi : ⌊encHumVal 100⌋ = 127 :=
  floor_rnd_rnd_mul (lo := 1) (hi := 1) (k := 0) (factor := 127) (by norm_num) (by norm_num) (by norm_num) (by decide)
    (by decide)

theorem floor_encGasVal_hi : ⌊encGasVal 3⌋ = 127 :=
  floor_rnd_eq (m := 2251764629313159) (k := 44) (by norm_num [gasFactor]) (by norm_num [gasFactor])
    (by decide) (by decide) (by decide)

theorem floor_encGpsVal_hi : ⌊encGpsVal 180⌋ = 3600000 :=
  floor_rnd_rnd_mul (lo := 360) (hi := 360) (k := 0) (factor := 10000) (by norm_num) (by norm_num) (by norm_num)
    (by decide) (by decide)

/-- A monotone transform that is 0 at the lower end stays between the truncations of its ends. -/
theorem floor_bounds {f : ℚ → ℚ} {lo hi x : ℚ} {n : ℤ} (hf : Monotone f) (hflo : f lo = 0) (hfhi : ⌊f hi⌋ = n)
    (hlo : lo ≤ x) (hhi : x ≤ hi) : 0 ≤ ⌊f x⌋ ∧ ⌊f x⌋ ≤ n :=
  ⟨Int.floor_nonneg.mpr (hflo ▸ hf hlo), hfhi ▸ Int.floor_mono (hf hhi)⟩

theorem encTemp_bounds {t : Real64} (h : tempOk t = true) : 0 ≤ encTemp t ∧ encTemp t ≤ 1023 := by
  obtain ⟨-, hlo, hhi⟩ := tempOk_iff.mp h
  rw [encTemp_eq_floor h]
  exact floor_bounds encTempVal_mono encTempVal_lo floor_encTempVal_hi hlo hhi

theorem encHum_bounds {h : Real64} (hok : humOk h = true) : 0 ≤ encHum h ∧ encHum h ≤ 127 := by
  obtain ⟨-, hlo, hhi⟩ := humOk_iff.mp hok
  rw [encHum_eq_floor hok]
  exact floor_bounds encHumVal_mono encHumVal_lo floor_encHumVal_hi hlo hhi

theorem encGas_bounds {g : Real64} (h : gasOk g = true) : 0 ≤ encGas g ∧ encGas g ≤ 127 := by
  obtain ⟨-, hlo, hhi⟩ := gasOk_iff.mp h
  rw [encGas_eq_floor h]
  exact floor_bounds encGasVal_mono encGasVal_lo floor_encGasVal_hi hlo hhi

theorem encGps_bounds {x : Real64} (h : gpsOk x = true) : 0 ≤ encGps x ∧ encGps x ≤ 3600000 := by
  obtain ⟨-, hlo, hhi⟩ := gpsOk_iff.mp h
  rw [encGps_eq_floor h]
  exact floor_bounds encGpsVal_mono encGpsVal_lo floor_encGpsVal_hi hlo hhi

/-! ### Encoding a pattern of known value -/

section
variable {r : Real64} {x : ℚ} {n : ℤ} (hfin : isFinite r = true) (hval : val r = x)
include hfin hval

theorem encTemp_of_val (hlo : -50 ≤ x) (hhi : x ≤ tempTop) (hn : ⌊encTempVal x⌋ = n) : encTemp r = n := by
  rw [encTemp_eq_floor (tempOk_iff.mpr ⟨hfin, hval ▸ hlo, hval ▸ hhi⟩), hval, hn]

theorem encHum_of_val (hlo : 0 ≤ x) (hhi : x ≤ 100) (hn : ⌊encHumVal x⌋ = n) : encHum r = n := by
  rw [encHum_eq_floor (humOk_iff.mpr ⟨hfin, hval ▸ hlo, hval ▸ hhi⟩), hval, hn]

theorem encGas_of_val (hlo : 0 ≤ x) (hhi : x ≤ 3) (hn : ⌊encGasVal x⌋ = n) : encGas r = n := by
  rw [encGas_eq_floor (gasOk_iff.mpr ⟨hfin, hval ▸ hlo, hval ▸ hhi⟩), hval, hn]

theorem encGps_of_val (hlo : -180 ≤ x) (hhi : x ≤ 180) (hn : ⌊encGpsVal x⌋ = n) : encGps r = n := by
  rw [encGps_eq_floor (gpsOk_iff.mpr ⟨hfin, hval ▸ hlo, hval ▸ hhi⟩), hval, hn]

end

/-- Settles O31: the version is its own raw value; each other encoder is monotone (O32) between the raw values at the
ends of its domain, which are computed there. -/
theorem encodedValuesFitTheirFields : Obligations.EncodedValuesFitTheirFields := by
  unfold Obligations.EncodedValuesFitTheirFields
  obtain ⟨hTLo, hZero, hHHi, hGHi, hPLo, hPHi⟩ := val_exact_domain_ends
  obtain ⟨hTHi, -⟩ := val_inexact_constants
  refine ⟨fun n => (verOk_iff n).mp, fun t => encTemp_bounds, fun h => encHum_bounds, fun g => encGas_bounds,
    fun x => encGps_bounds, ⟨?tempLo, ?tempHi, ?humLo, ?humHi⟩, ?gasLo, ?gasHi, ?gpsLo, ?gpsHi⟩
  case tempLo =>
    exact encTemp_of_val (by decide) hTLo le_rfl (by norm_num [tempTop]) (by rw [encTempVal_lo, Int.floor_zero])
  case tempHi => exact encTemp_of_val (by decide) hTHi (by norm_num) le_rfl floor_encTempVal_hi
  case humLo => exact encHum_of_val isFinite_cZero hZero le_rfl (by norm_num) (by rw [encHumVal_lo, Int.floor_zero])
  case humHi => exact encHum_of_val (by decide) hHHi (by norm_num) le_rfl floor_encHumVal_hi
  case gasLo => exact encGas_of_val isFinite_cZero hZero le_rfl (by norm_num) (by rw [encGasVal_lo, Int.floor_zero])
  case gasHi => exact encGas_of_val (by decide) hGHi (by norm_num) le_rfl floor_encGasVal_hi
  case gpsLo => exact encGps_of_val (by decide) hPLo le_rfl (by norm_num) (by rw [encGpsVal_lo, Int.floor_zero])
  case gpsHi => exact encGps_of_val (by decide) hPHi (by norm_num) le_rfl floor_encGpsVal_hi

end Sys2Proof.Proofs
end

section
/-! PROOF. What one step does, at the ports and in the fault latch (`10_state.md` R22, R23, `30_encoding.md` R61,
`60_exceptions.md` R96, R97, R102, `70_reset_and_hazards.md` R105). -/

namespace Sys2Proof.Proofs

-- One declaration after the other: checking the text then needs less memory.
set_option Elab.async false

open Sys2Proof.Machine Sys2Proof.Claims

/-! ### A command by its entry in the cause table (`60_exceptions.md` R91) -/

/-- Where a command is performed, either the cause table has no entry for it and the latch stays, or it takes the
exception with the entry's code. -/
theorem exec_next_by_violation {i : Instr} {s t : State} (h : exec i s = .next t) :
    (i.violation = none ∧ t.fault = false ∧ t.fcode = s.fcode ∧ t.inputs = s.inputs) ∨
      ∃ c, i.violation = some c ∧ t = Raised c s := by
  obtain ⟨hfault, -⟩ := exec_next h
  cases hv : i.violation with
  | none => exact .inl ⟨rfl, exec_of_no_violation h hv⟩
  | some c => exact .inr ⟨c, rfl, Host.Outcome.next.inj (h.symm.trans (exec_of_violation hfault hv))⟩

/-- A performed command leaves FAULT = 0 exactly where the cause table has no entry for it. -/
theorem fault_eq_false_iff_of_exec {i : Instr} {s t : State} (h : exec i s = .next t) :
    t.fault = false ↔ i.violation = none := by
  rcases exec_next_by_violation h with ⟨hv, hfault, -⟩ | ⟨c, hv, rfl⟩
  · simp [hv, hfault]
  · simp [hv, Raised]

theorem exec_inputs {i : Instr} {s t : State} (h : exec i s = .next t) : t.inputs = s.inputs := by
  rcases exec_next_by_violation h with ⟨-, -, -, hinputs⟩ | ⟨c, -, rfl⟩
  · exact hinputs
  · rfl

/-- No command has a step while FAULT = 1 (R96). -/
theorem exec_faulted {s : State} (hfault : s.fault = true) (i : Instr) :
    exec i s = .fault .commandWhileFaulted := by
  cases i <;> exact command_faulted hfault

theorem code_bounds_of_ite {p : Prop} [Decidable p] {c c' : BitVec 3} (hc' : 1 ≤ c'.toNat ∧ c'.toNat ≤ 6)
    (h : (if p then none else some c') = some c) : 1 ≤ c.toNat ∧ c.toNat ≤ 6 := by
  obtain ⟨-, hc⟩ := Option.ite_none_left_eq_some.mp h
  exact Option.some.inj hc ▸ hc'

/-- The codes of the cause table are 1 to 6; 7 is no entry (R91). -/
theorem violation_code_bounds {i : Instr} {c : BitVec 3} (h : i.violation = some c) :
    1 ≤ c.toNat ∧ c.toNat ≤ 6 := by
  cases i with
  | setver | settemp | sethum | setgas => exact code_bounds_of_ite (by decide) h
  | setgps lat lon =>
    rw [violation_setgps] at h
    split at h
    · exact code_bounds_of_ite (by decide) h
    · exact Option.some.inj h ▸ by decide
  | clr | load | eq | setbat | getver | getbat | gettemp | gethum | getgas | getgps | view => cases h

/-! ### FAULT and FCODE agree (`10_state.md` R23) -/

/-- The agreement speaks of the latch alone. -/
theorem latchOk_congr {s t : State} (hfault : t.fault = s.fault) (hfcode : t.fcode = s.fcode) :
    t.latchOk = s.latchOk := by
  rw [State.latchOk, State.latchOk, hfault, hfcode]

theorem latchOk_raised {c : BitVec 3} (hc : 1 ≤ c.toNat ∧ c.toNat ≤ 6) (s : State) :
    (Raised c s).latchOk = true := by
  simp [State.latchOk, Raised, hc]

theorem latchOk_exec {i : Instr} {s t : State} (hs : s.latchOk = true) (h : exec i s = .next t) :
    t.latchOk = true := by
  rcases exec_next_by_violation h with ⟨-, hfault, hfcode, -⟩ | ⟨c, hv, rfl⟩
  · obtain ⟨hfault', -⟩ := exec_next h
    rw [latchOk_congr (hfault.trans hfault'.symm) hfcode, hs]
  · exact latchOk_raised (violation_code_bounds hv) s

theorem latchOk_serve {p : PortInput} {s t : State} (hs : s.latchOk = true) (h : serve p s = .next t) :
    t.latchOk = true := by
  rcases serve_next h with ⟨-, rfl⟩ | ⟨-, -, rfl⟩ | ⟨-, -, -, rfl⟩ | ⟨-, -, w, -, hexec⟩
  · rfl
  · exact hs
  · exact hs
  · exact latchOk_exec hs hexec

/-- Settles O12: reset clears both parts of the latch, the steps without a command leave both, and a command leaves
both or takes the exception with a code of the cause table. -/
theorem faultAndCodeStayConsistent : Obligations.FaultAndCodeStayConsistent := by
  unfold Obligations.FaultAndCodeStayConsistent
  intro s t hs h
  rcases step_next h with ⟨-, rfl⟩ | ⟨p, rest, -, hserve⟩
  · exact hs
  · exact latchOk_serve (s := { s with inputs := rest }) hs hserve

/-! ### One step by the host's next presentation (`30_encoding.md` R60, R61) -/

theorem step_of_no_inputs {s : State} (h : s.inputs = []) : step s = .next s.idle := by
  simp [step, serveNext, h]

theorem step_of_inputs {s : State} {p : PortInput} {rest : List PortInput} (h : s.inputs = p :: rest) :
    step s = serve p { s with inputs := rest } := by
  simp [step, serveNext, h]

theorem serve_reset (c : Option CmdWord) (s : State) : serve ⟨true, c⟩ s = .next s.applyReset := rfl

theorem serve_nothing (s : State) : serve ⟨false, none⟩ s = .next s.idle := rfl

theorem serve_word_operating {s : State} (hfault : s.fault = false) (w : CmdWord) :
    serve ⟨false, some w⟩ s = exec (decode w) s := by
  simp [serve, hfault]

theorem serve_word_faulted {s : State} (hfault : s.fault = true) (w : CmdWord) :
    serve ⟨false, some w⟩ s = .next s.notTaken := by
  simp [serve, hfault]

/-- A step that answers takes the host's next presentation and no other. -/
theorem step_inputs {s t : State} (h : step s = .next t) : t.inputs = s.inputs.tail := by
  rcases step_next h with ⟨hnone, rfl⟩ | ⟨p, rest, hinputs, hserve⟩
  · rw [hnone]
    exact hnone
  · rw [hinputs, List.tail_cons]
    rcases serve_next hserve with ⟨-, rfl⟩ | ⟨-, -, rfl⟩ | ⟨-, -, -, rfl⟩ | ⟨-, -, w, -, hexec⟩
    · rfl
    · rfl
    · rfl
    · exact exec_inputs hexec

/-- Settles O7: the step serves that presentation, and an operating block serves a command word by the command it
spells; a placed word is the first presentation. -/
theorem stepPerformsTheDecodedCommand : Obligations.StepPerformsTheDecodedCommand := by
  unfold Obligations.StepPerformsTheDecodedCommand
  exact ⟨fun s w rest hfault hinputs =>
      (step_of_inputs hinputs).trans (serve_word_operating (s := { s with inputs := rest }) hfault w),
    fun s nbits n hfault =>
      (step_of_inputs (State.present_inputs s _)).trans (serve_word_operating hfault _)⟩

/-- Settles O10: without a presentation, and for one that presents nothing, the step is idle. -/
theorem idleKeepsTheBlock : Obligations.IdleKeepsTheBlock := by
  unfold Obligations.IdleKeepsTheBlock
  exact ⟨fun s => step_of_no_inputs,
    fun s rest hinputs => (step_of_inputs hinputs).trans (serve_nothing { s with inputs := rest })⟩

/-! ### The faulted block and reset (`60_exceptions.md` R97, `70_reset_and_hazards.md` R105) -/

/-- A reset request is answered in every state. -/
theorem step_of_reset {s : State} {c : Option CmdWord} {rest : List PortInput} (h : s.inputs = ⟨true, c⟩ :: rest) :
    step s = .next ({ s with inputs := rest } : State).applyReset :=
  (step_of_inputs h).trans (serve_reset c _)

/-- Settles O9: the standing precondition of every command fails, a command word is not taken, and a reset request is
answered. -/
theorem faultedBlockTakesNoCommand : Obligations.FaultedBlockTakesNoCommand := by
  unfold Obligations.FaultedBlockTakesNoCommand
  exact ⟨fun i s hfault => exec_faulted hfault i,
    fun s w rest hfault hinputs =>
      (step_of_inputs hinputs).trans (serve_word_faulted (s := { s with inputs := rest }) hfault w),
    fun s c rest _ hinputs => ⟨_, step_of_reset hinputs, rfl⟩⟩

/-- Settles O11: of the four things a presentation can do, reset clears the latch, two keep the block, and a command
would need FAULT = 0. -/
theorem onlyResetLeavesTheFaultedState : Obligations.OnlyResetLeavesTheFaultedState := by
  unfold Obligations.OnlyResetLeavesTheFaultedState
  intro s t hfault h
  rcases step_next h with ⟨-, rfl⟩ | ⟨⟨rst, c⟩, rest, hinputs, hserve⟩
  · exact .inl ⟨hfault, rfl, rfl, rfl⟩
  · rcases serve_next hserve with ⟨hrst, rfl⟩ | ⟨-, -, rfl⟩ | ⟨-, -, -, rfl⟩ | ⟨-, hoperating, -⟩
    · obtain rfl : rst = true := hrst
      exact .inr ⟨rfl, rfl, rfl, c, rest, hinputs⟩
    · exact .inl ⟨hfault, rfl, rfl, rfl⟩
    · exact .inl ⟨hfault, rfl, rfl, rfl⟩
    · exact absurd (hoperating.symm.trans hfault) Bool.false_ne_true

/-- Settles O8: a reset request is answered with the cleared block, which accepts every command; and by O11 nothing
else clears FAULT. -/
theorem resetClearsTheBlockAndWins : Obligations.ResetClearsTheBlockAndWins := by
  unfold Obligations.ResetClearsTheBlockAndWins
  refine ⟨fun s c rest hinputs => ?reset, fun s t hfault h ht => ?only⟩
  case reset =>
    exact ⟨_, step_of_reset hinputs, payByte_zero, rfl, rfl, rfl, rfl, exec_completes rfl⟩
  case only =>
    rcases onlyResetLeavesTheFaultedState s t hfault h with ⟨hstays, -⟩ | ⟨-, -, -, hreset⟩
    · simp [hstays] at ht
    · exact hreset

/-- Settles O15: the latch is clear, every field is zero and the host has presented nothing. -/
theorem resetStateMeetsTheInvariants : Obligations.ResetStateMeetsTheInvariants := by
  unfold Obligations.ResetStateMeetsTheInvariants
  refine ⟨rfl, ?_, raw_reset .rsv, rfl⟩
  simp [State.gpsProducible]

/-- Settles O16: CLR keeps the latch, which with FAULT = 0 has code 0, and the cleared payload is ten zero bytes. -/
theorem resetEqualsClear : Obligations.ResetEqualsClear := by
  unfold Obligations.ResetEqualsClear
  intro s r hfault hlatch
  have hfcode : s.fcode = 0 := by simpa [State.latchOk, hfault] using hlatch
  exact ⟨_, exec_clr hfault, rfl, hfault, hfcode, exec_eq_of_pay_eq rfl rfl⟩

/-! ### Lists of commands (`60_exceptions.md` R96) -/

theorem runToCompletion_faulted {s : State} (hfault : s.fault = true) (is : List Instr) :
    runToCompletion is s = none := by
  cases is with
  | nil => simp [runToCompletion, hfault]
  | cons i is => simp [runToCompletion, exec_faulted hfault i]

theorem runToCompletion_cons {i : Instr} {is : List Instr} {s t : State} (h : exec i s = .next t) :
    runToCompletion (i :: is) s = runToCompletion is t := by
  simp [runToCompletion, h]

/-- Settles O18, by induction on the list: the first command leaves FAULT = 0 exactly where it has no violation. -/
theorem runsCompleteIffNoViolation : Obligations.RunsCompleteIffNoViolation := by
  unfold Obligations.RunsCompleteIffNoViolation
  intro is
  induction is with
  | nil => simp [runToCompletion]
  | cons i is ih =>
    intro s
    cases hfault : s.fault with
    | true => simp [runToCompletion_faulted hfault]
    | false =>
      obtain ⟨t, ht⟩ := exec_completes hfault i
      rw [runToCompletion_cons ht, ih t, fault_eq_false_iff_of_exec ht]
      simp

end Sys2Proof.Proofs
end

section
/-! PROOF. Commands by the words that spell them and the fields they write (`10_state.md` R20, `20_memory.md` R33, R41,
`30_encoding.md` R57): what a performed command stores, that a payload is its eight fields, and the sequences of
commands that follow from both. -/

namespace Sys2Proof.Proofs

-- One declaration after the other: checking the text then needs less memory.
set_option Elab.async false

open Sys2Proof.Machine Sys2Proof.Claims

/-! ### Numbers as command words (`30_encoding.md` R57, R63) -/

/-- Settles O5: every row of the opcode table spells a well-formed command, and the width of the port alone decides
whether a number is decoded. -/
theorem decoderIsTotalOnCommandWords : Obligations.DecoderIsTotalOnCommandWords := by
  unfold Obligations.DecoderIsTotalOnCommandWords
  refine ⟨fun w => (opcodeRow_decode w).wf, fun nbits n hn => ?_, fun nbits n hn => ?_⟩
  · rw [decodeTableWord, decodeNumber, if_pos hn]
  · rw [decodeTableWord, decodeNumber, if_neg (not_lt.mpr hn)]

/-- Settles O6: each word's opcode and operand fields are evaluated. -/
theorem sampleWordsDecode : Obligations.SampleWordsDecode := by
  unfold Obligations.SampleWordsDecode
  exact ⟨rfl, rfl, rfl, rfl, rfl, rfl, rfl, rfl, rfl, rfl, rfl, rfl⟩

/-! ### The fields tile the payload (`20_memory.md` section 3) -/

theorem exists_field_at {p : Nat} (hp : p < 80) : ∃ f : PayField, f.pos ≤ p ∧ p < f.pos + f.width := by
  rcases Nat.lt_or_ge p 4 with h₁ | h₁
  · exact ⟨.ver, Nat.zero_le p, h₁⟩
  rcases Nat.lt_or_ge p 5 with h₂ | h₂
  · exact ⟨.bat, h₁, h₂⟩
  rcases Nat.lt_or_ge p 8 with h₃ | h₃
  · exact ⟨.rsv, h₂, h₃⟩
  rcases Nat.lt_or_ge p 18 with h₄ | h₄
  · exact ⟨.temp, h₃, h₄⟩
  rcases Nat.lt_or_ge p 25 with h₅ | h₅
  · exact ⟨.hum, h₄, h₅⟩
  rcases Nat.lt_or_ge p 32 with h₆ | h₆
  · exact ⟨.gas, h₅, h₆⟩
  rcases Nat.lt_or_ge p 56 with h₇ | h₇
  · exact ⟨.lat, h₆, h₇⟩
  · exact ⟨.lon, h₇, hp⟩

/-- Settles O19: the table has a field at each position, and two different fields share none. -/
theorem fieldsTileThePayload : Obligations.FieldsTileThePayload := by
  unfold Obligations.FieldsTileThePayload
  refine ⟨fun p => ?_, rfl, mem_all_fields⟩
  obtain ⟨f, hlo, hhi⟩ := exists_field_at p.isLt
  refine ⟨f, ⟨hlo, hhi⟩, fun g hg => ?_⟩
  by_contra hne
  rcases fields_disjoint hne with h | h <;> lia

/-- Two payloads whose eight fields agree are equal. -/
theorem pay_ext_fields {p q : PayVec} (h : ∀ f, readField p f = readField q f) : p = q := by
  apply BitVec.eq_of_getLsbD_eq
  intro k hk
  obtain ⟨pos, hpos⟩ := Nat.exists_eq_add_of_lt hk
  obtain ⟨f, hlo, hhi⟩ := exists_field_at (p := pos) (by lia)
  obtain ⟨below, hend⟩ := Nat.exists_eq_add_of_le (field_end_le f)
  obtain ⟨r, rfl⟩ := Nat.exists_eq_add_of_le (show below ≤ k by lia)
  have hbit := congrArg (Nat.testBit · r) (h f)
  have hr : r < f.width := by lia
  have hbelow : 80 - f.pos - f.width = below := (Nat.sub_sub ..).trans (Nat.sub_eq_of_eq_add' hend)
  rwa [testBit_readField, testBit_readField, decide_eq_true hr, Bool.true_and, Bool.true_and, hbelow] at hbit

/-- Settles O20: the bits of the field take the value's, and every other field stands outside them. -/
theorem insertThenExtractIsolation : Obligations.InsertThenExtractIsolation := by
  unfold Obligations.InsertThenExtractIsolation
  exact fun pay f v hv => ⟨readField_writeField_same pay hv, fun g hne => readField_writeField_ne pay v hne⟩

/-! ### Runs of bytes (`00_scope.md` section 6.3) -/

section
variable {addr n below : Nat} (h : addr + n + below = 10) (pay : PayVec) (v : BitVec (8 * n))
include h

/-- The ten bytes are those before the run, the run and those below it. -/
theorem eighty_eq : 80 = 8 * below + 8 * n + 8 * addr := by lia

/-- Bit i of a write of n bytes that have `below` bytes after them. -/
theorem getLsbD_insertBits_bytes (i : Nat) : (insertBits pay (8 * addr) (8 * n) v.toNat).getLsbD i =
    if 8 * below ≤ i ∧ i < 8 * below + 8 * n then v.getLsbD (i - 8 * below) else pay.getLsbD i := by
  have h80 := eighty_eq h
  rw [getLsbD_insertBits pay (by lia), Nat.sub_eq_of_eq_add h80, Nat.add_sub_cancel, BitVec.testBit_toNat]

/-- A run of bytes reads back what was written there. -/
theorem extractLsb'_insertBits_bytes :
    (insertBits pay (8 * addr) (8 * n) v.toNat).extractLsb' (80 - 8 * addr - 8 * n) (8 * n) = v := by
  apply BitVec.eq_of_getLsbD_eq
  intro j hj
  rw [BitVec.getLsbD_extractLsb', getLsbD_insertBits_bytes h, Nat.sub_eq_of_eq_add (eighty_eq h), Nat.add_sub_cancel,
    if_pos ⟨Nat.le_add_right _ _, Nat.add_lt_add_left hj _⟩, Nat.add_sub_cancel_left, decide_eq_true hj, Bool.true_and]

/-- Byte k of the run is byte k of the vector, the first most significant. -/
theorem payByte_insertBits_inside {k : Nat} {i : Fin 10} (hk : k < n) (hi : i.val = addr + k) :
    payByte (insertBits pay (8 * addr) (8 * n) v.toNat) i = v.extractLsb' (8 * (n - k) - 8) 8 := by
  obtain ⟨after, rfl⟩ := Nat.exists_eq_add_of_lt hk
  have hbyte : 72 - 8 * i.val = 8 * below + 8 * after := Nat.sub_eq_of_eq_add (by lia)
  have hslice : 8 * (k + after + 1 - k) - 8 = 8 * after := by
    rw [Nat.add_assoc, Nat.add_sub_cancel_left, Nat.mul_succ, Nat.add_sub_cancel]
  apply BitVec.eq_of_getLsbD_eq
  intro j hj
  have hbit : 8 * after + j < 8 * (k + after + 1) := by lia
  rw [getLsbD_payByte, BitVec.getLsbD_extractLsb', getLsbD_insertBits_bytes h, hbyte, hslice, Nat.add_assoc,
    if_pos ⟨Nat.le_add_right _ _, Nat.add_lt_add_left hbit _⟩, Nat.add_sub_cancel_left]

theorem payByte_insertBits_outside {i : Fin 10} (hi : i.val < addr ∨ addr + n ≤ i.val) :
    payByte (insertBits pay (8 * addr) (8 * n) v.toNat) i = payByte pay i := by
  obtain ⟨after, hafter⟩ := Nat.exists_eq_add_of_lt i.isLt
  have hbyte : 72 - 8 * i.val = 8 * after := Nat.sub_eq_of_eq_add (by lia)
  apply BitVec.eq_of_getLsbD_eq
  intro j hj
  rw [getLsbD_payByte, getLsbD_payByte, getLsbD_insertBits_bytes h, hbyte, if_neg]
  rintro ⟨hlo, hhi⟩
  rcases hi with hi | hi
  · lia
  · lia

end

/-- Settles O23: a run inside the ten bytes is an insert of whole bytes, and a longer one is not defined. -/
theorem bytesReadAndWriteBigEndian : Obligations.BytesReadAndWriteBigEndian := by
  unfold Obligations.BytesReadAndWriteBigEndian
  refine fun pay addr n v => ⟨fun h => ?defined, fun h => ?undefined⟩
  case defined =>
    have hsize : addr + n ≤ Config.nbytes := h
    obtain ⟨below, hbelow⟩ := Nat.exists_eq_add_of_le h
    replace hbelow := hbelow.symm
    refine ⟨insertBits pay (8 * addr) (8 * n) v.toNat, if_pos hsize, ?_,
      fun k i => payByte_insertBits_inside hbelow pay v, fun i => payByte_insertBits_outside hbelow pay v⟩
    rw [memRead, if_pos hsize, extractLsb'_insertBits_bytes hbelow]
  case undefined =>
    have hsize : ¬ addr + n ≤ Config.nbytes := not_le.mpr h
    exact ⟨if_neg hsize, if_neg hsize⟩

/-! ### What a command stores (`42_setters.md` R74, R75) -/

/-- Settles O24: a command keeps every field outside its list, and no command touches the host's inputs. -/
theorem noCommandTouchesOtherFields : Obligations.NoCommandTouchesOtherFields := by
  unfold Obligations.NoCommandTouchesOtherFields
  exact fun i s t f h hf => ⟨raw_exec_of_notMem_writes h hf, exec_inputs h⟩

/-- The raw value a performed command stores in a field of its list (R70, R71, R74, R75, R81); of no meaning for any
other field. -/
def storedRaw : Instr → PayField → Nat
  | .load buf, f => readField buf f
  | .setver n, _ => rawOf 4 (encVer n)
  | .settemp x, _ => rawOf 10 (encTemp x)
  | .sethum x, _ => rawOf 7 (encHum x)
  | .setgas x, _ => rawOf 7 (encGas x)
  | .setgps x y, f => rawOf 24 (encGps (if f = .lat then x else y))
  | .setbat b, _ => encBat b
  | .clr, _ | .eq _, _ | .getver, _ | .getbat, _ | .gettemp, _ | .gethum, _ | .getgas, _ | .getgps, _ | .view, _ => 0

/-- The commands that write nothing are the reading ones. -/
theorem isRead_eq_isEmpty_writes (i : Instr) : i.isRead = i.writes.isEmpty := by cases i <;> rfl

theorem writes_eq_nil_of_isRead {i : Instr} (h : i.isRead = true) : i.writes = [] :=
  List.isEmpty_iff.mp ((isRead_eq_isEmpty_writes i).symm.trans h)

/-- Where no exception is taken, each field of the command's list holds the stored value: it depends on the operands
alone. -/
theorem raw_exec_of_mem_writes {i : Instr} {s t : State} {f : PayField} (h : exec i s = .next t)
    (hfault : t.fault = false) (hf : f ∈ i.writes) : t.raw f = storedRaw i f := by
  obtain ⟨-, hnext⟩ := exec_next h
  rcases hnext with ⟨hread, -⟩ | ⟨_, ⟨rfl, rfl⟩ | rfl, rfl⟩ | ⟨_, rfl, -, rfl⟩ | ⟨_, rfl, -, rfl⟩ |
    ⟨_, rfl, -, rfl⟩ | ⟨_, rfl, -, rfl⟩ | ⟨_, _, rfl, -, -, rfl⟩ | ⟨b, rfl, rfl⟩ | ⟨_, rfl, -⟩
  · rw [writes_eq_nil_of_isRead hread] at hf
    cases hf
  · exact readField_zero f
  · rfl
  · obtain rfl := List.mem_singleton.mp hf
    exact readField_writeField_same _ (rawOf_lt 4 _)
  · obtain rfl := List.mem_singleton.mp hf
    exact readField_writeField_same _ (rawOf_lt 10 _)
  · obtain rfl := List.mem_singleton.mp hf
    exact readField_writeField_same _ (rawOf_lt 7 _)
  · obtain rfl := List.mem_singleton.mp hf
    exact readField_writeField_same _ (rawOf_lt 7 _)
  · obtain rfl | rfl : f = .lat ∨ f = .lon := List.mem_pair.mp hf
    · exact (readField_writeField_ne _ _ (by decide)).trans (readField_writeField_same _ (rawOf_lt 24 _))
    · exact readField_writeField_same _ (rawOf_lt 24 _)
  · obtain rfl := List.mem_singleton.mp hf
    exact readField_writeField_same _ (encBat_lt b)
  · cases hfault

/-! ### Two commands in a row (`20_memory.md` R41) -/

/-- Whether a command leaves FAULT = 0 does not depend on the state it is performed in. -/
theorem fault_eq_false_of_exec {i : Instr} {s t s' t' : State} (h : exec i s = .next t) (hfault : t.fault = false)
    (h' : exec i s' = .next t') : t'.fault = false :=
  (fault_eq_false_iff_of_exec h').mpr ((fault_eq_false_iff_of_exec h).mp hfault)

/-- Settles O53: a field that one command writes holds what that command stores in either order, and a field that
neither writes is as before. -/
theorem commandsOnDifferentFieldsCommute : Obligations.CommandsOnDifferentFieldsCommute := by
  unfold Obligations.CommandsOnDifferentFieldsCommute
  intro i j s a b c d hdisjoint ha hb hc hd hbfault hdfault
  have hafault : a.fault = false := fault_eq_false_of_exec hd hdfault ha
  have hcfault : c.fault = false := fault_eq_false_of_exec hb hbfault hc
  refine pay_ext_fields fun f => ?_
  by_cases hi : f ∈ i.writes
  · calc b.raw f = a.raw f := raw_exec_of_notMem_writes hb (hdisjoint f hi)
      _ = storedRaw i f := raw_exec_of_mem_writes ha hafault hi
      _ = d.raw f := (raw_exec_of_mem_writes hd hdfault hi).symm
  · by_cases hj : f ∈ j.writes
    · calc b.raw f = storedRaw j f := raw_exec_of_mem_writes hb hbfault hj
        _ = c.raw f := (raw_exec_of_mem_writes hc hcfault hj).symm
        _ = d.raw f := (raw_exec_of_notMem_writes hd hi).symm
    · calc b.raw f = a.raw f := raw_exec_of_notMem_writes hb hj
        _ = s.raw f := raw_exec_of_notMem_writes ha hi
        _ = c.raw f := (raw_exec_of_notMem_writes hc hj).symm
        _ = d.raw f := (raw_exec_of_notMem_writes hd hi).symm

/-- The fields that an opcode's commands write (`10_state.md` R20's table). -/
def opcodeWrites (op : BitVec 4) : List PayField :=
  match op.toNat with
  | 0 | 1 => PayField.all
  | 3 => [.ver]
  | 4 => [.temp]
  | 5 => [.hum]
  | 6 => [.gas]
  | 7 => [.lat, .lon]
  | 8 => [.bat]
  | _ => []

theorem writes_eq_opcodeWrites (i : Instr) : i.writes = opcodeWrites i.opcode := by cases i <;> rfl

/-- Settles O54: the second command stores the same values whatever stood there, and the first wrote no other field. -/
theorem theLaterWriteStays : Obligations.TheLaterWriteStays := by
  unfold Obligations.TheLaterWriteStays
  intro i j s a b c hop ha hb hbfault hc
  have hwrites : i.writes = j.writes := by rw [writes_eq_opcodeWrites, writes_eq_opcodeWrites, hop]
  refine pay_ext_fields fun f => ?_
  by_cases hj : f ∈ j.writes
  · calc b.raw f = storedRaw j f := raw_exec_of_mem_writes hb hbfault hj
      _ = c.raw f := (raw_exec_of_mem_writes hc (fault_eq_false_of_exec hb hbfault hc) hj).symm
  · calc b.raw f = a.raw f := raw_exec_of_notMem_writes hb hj
      _ = s.raw f := raw_exec_of_notMem_writes ha (hwrites ▸ hj)
      _ = c.raw f := (raw_exec_of_notMem_writes hc hj).symm

/-! ### A getter after its setter (`20_memory.md` R41) -/

/-- A command without a violation completes, leaves FAULT = 0 and stores its values. -/
theorem exec_stores {i : Instr} {s : State} (hfault : s.fault = false) (hv : i.violation = none) :
    ∃ t, exec i s = .next t ∧ t.fault = false ∧ ∀ f ∈ i.writes, t.raw f = storedRaw i f := by
  obtain ⟨t, ht⟩ := exec_completes hfault i
  obtain ⟨htfault, -⟩ := exec_of_no_violation ht hv
  exact ⟨t, ht, htfault, fun f => raw_exec_of_mem_writes ht htfault⟩

/-- Settles O52: each setter leaves the block operating with its raw value stored, and each getter answers with the
decode of the raw value it finds; the version and the flag are their own raw values. -/
theorem getterAfterSetterReadsWhatWasStored : Obligations.GetterAfterSetterReadsWhatWasStored := by
  unfold Obligations.GetterAfterSetterReadsWhatWasStored
  refine fun s hfault => ⟨fun n hlo hhi => ?ver, fun b => ?bat, fun x hx => ?temp, fun x hx => ?hum,
    fun x hx => ?gas, fun x y hx hy => ?gps⟩
  case ver =>
    obtain ⟨t, ht, htfault, hraw⟩ := exec_stores (i := .setver n) hfault (if_pos ⟨hlo, hhi⟩)
    refine ⟨t, _, ht, exec_getver htfault, ?_⟩
    have hstored : t.raw .ver = n.toNat :=
      (hraw .ver (List.mem_singleton_self _)).trans (rawOf_of_lt hlo (Int.lt_of_le_of_lt hhi (by decide)))
    rw [State.respond_rsp, hstored, ← BitVec.ofInt_natCast, Int.toNat_of_nonneg hlo]
  case bat =>
    obtain ⟨t, ht, htfault, hraw⟩ := exec_stores (i := .setbat b) hfault rfl
    refine ⟨t, _, ht, exec_getbat htfault, ?_⟩
    rw [State.respond_rsp, hraw .bat (List.mem_singleton_self _)]
    cases b <;> rfl
  case temp =>
    obtain ⟨t, ht, htfault, hraw⟩ := exec_stores (i := .settemp x) hfault (by rw [violation_settemp, if_pos hx])
    refine ⟨t, _, ht, exec_gettemp htfault, ?_⟩
    rw [State.respond_rsp, hraw .temp (List.mem_singleton_self _)]
    rfl
  case hum =>
    obtain ⟨t, ht, htfault, hraw⟩ := exec_stores (i := .sethum x) hfault (by rw [violation_sethum, if_pos hx])
    refine ⟨t, _, ht, exec_gethum htfault, ?_⟩
    rw [State.respond_rsp, hraw .hum (List.mem_singleton_self _)]
    rfl
  case gas =>
    obtain ⟨t, ht, htfault, hraw⟩ := exec_stores (i := .setgas x) hfault (by rw [violation_setgas, if_pos hx])
    refine ⟨t, _, ht, exec_getgas htfault, ?_⟩
    rw [State.respond_rsp, hraw .gas (List.mem_singleton_self _)]
    rfl
  case gps =>
    obtain ⟨t, ht, htfault, hraw⟩ := exec_stores (i := .setgps x y) hfault
      (by rw [violation_setgps, if_pos hx, if_pos hy])
    refine ⟨t, _, ht, exec_getgps htfault, ?_⟩
    rw [State.respond_rsp, hraw .lat List.mem_cons_self, hraw .lon (List.mem_cons_of_mem _ (List.mem_singleton_self _))]
    rfl

end Sys2Proof.Proofs
end

section
/-! PROOF. Without LOAD the payload stays one that the setters can produce (`30_encoding.md` R49, R53, R64): every other
command stores raw coordinates of at most 3600000 and, in the reserved field, zero. -/

namespace Sys2Proof.Proofs

-- One declaration after the other: checking the text then needs less memory.
set_option Elab.async false

open Sys2Proof.Machine Sys2Proof.Claims

/-! ### What commands other than LOAD store -/

theorem rawOf_encGps_le {x : Real64} (h : gpsOk x = true) : rawOf 24 (encGps x) ≤ 3600000 := by
  obtain ⟨hlo, hhi⟩ := encGps_bounds h
  rw [rawOf_of_lt hlo (lt_of_le_of_lt hhi (by decide))]
  exact Int.toNat_le.mpr hhi

theorem violation_setgps_eq_none {x y : Real64} (hv : (Instr.setgps x y).violation = none) :
    gpsOk x = true ∧ gpsOk y = true := by
  rw [violation_setgps] at hv
  by_cases hx : gpsOk x = true
  · by_cases hy : gpsOk y = true
    · exact ⟨hx, hy⟩
    · rw [if_pos hx, if_neg hy] at hv
      cases hv
  · rw [if_neg hx] at hv
    cases hv

/-- The largest raw value that a field holds without LOAD, for the fields the invariant speaks of. -/
def rawLimit : PayField → Option Nat
  | .lat | .lon => some 3600000
  | .rsv => some 0
  | .ver | .bat | .temp | .hum | .gas => none

theorem storedRaw_le_rawLimit {i : Instr} {f : PayField} {limit : Nat} (hlimit : rawLimit f = some limit)
    (hload : i.isLoad = false) (hv : i.violation = none) (hf : f ∈ i.writes) : storedRaw i f ≤ limit := by
  cases i with
  | clr => exact Nat.zero_le _
  | load => cases hload
  | setver | settemp | sethum | setgas | setbat =>
    obtain rfl := List.mem_singleton.mp hf
    cases hlimit
  | setgps x y =>
    obtain ⟨hx, hy⟩ := violation_setgps_eq_none hv
    obtain rfl | rfl : f = .lat ∨ f = .lon := List.mem_pair.mp hf
    · obtain rfl : 3600000 = limit := Option.some.inj hlimit
      exact rawOf_encGps_le hx
    · obtain rfl : 3600000 = limit := Option.some.inj hlimit
      exact rawOf_encGps_le hy
  | eq | getver | getbat | gettemp | gethum | getgas | getgps | view => cases hf

/-! ### The invariant -/

/-- Every limited field of the payload keeps its limit. -/
def WithinLimits (s : State) : Prop := ∀ f limit, rawLimit f = some limit → s.raw f ≤ limit

theorem withinLimits_iff (s : State) : WithinLimits s ↔ s.gpsProducible = true ∧ s.raw .rsv = 0 := by
  rw [State.gpsProducible, Bool.and_eq_true, decide_eq_true_eq, decide_eq_true_eq]
  constructor
  · intro h
    exact ⟨⟨h .lat _ rfl, h .lon _ rfl⟩, Nat.le_zero.mp (h .rsv _ rfl)⟩
  · rintro ⟨⟨hlat, hlon⟩, hrsv⟩ f limit hlimit
    cases f with
    | lat | lon =>
      obtain rfl : 3600000 = limit := Option.some.inj hlimit
      assumption
    | rsv => exact hrsv.trans_le (Nat.zero_le _)
    | ver | bat | temp | hum | gas => cases hlimit

theorem withinLimits_exec {i : Instr} {s t : State} (hload : i.isLoad = false) (hs : WithinLimits s)
    (h : exec i s = .next t) : WithinLimits t := by
  intro f limit hlimit
  rcases exec_next_by_violation h with ⟨hv, hfault, -⟩ | ⟨c, -, rfl⟩
  · by_cases hf : f ∈ i.writes
    · rw [raw_exec_of_mem_writes h hfault hf]
      exact storedRaw_le_rawLimit hlimit hload hv hf
    · rw [raw_exec_of_notMem_writes h hf]
      exact hs f limit hlimit
  · exact hs f limit hlimit

theorem withinLimits_applyReset (s : State) : WithinLimits s.applyReset := fun f _ _ =>
  (readField_zero f).trans_le (Nat.zero_le _)

theorem noLoadAhead_cons {s : State} {p : PortInput} {rest : List PortInput} (hinputs : s.inputs = p :: rest)
    (h : s.noLoadAhead = true) :
    (∀ w, p.cmd = some w → (decode w).isLoad = false) ∧ ∀ t : State, t.inputs = rest → t.noLoadAhead = true := by
  rw [State.noLoadAhead, hinputs, List.all_cons, Bool.and_eq_true] at h
  obtain ⟨hfirst, hrest⟩ := h
  refine ⟨fun w hw => by simpa [hw] using hfirst, fun t ht => ?_⟩
  rw [State.noLoadAhead, ht]
  exact hrest

/-- Settles O13: reset makes every limited field zero, the steps without a command keep PAY, and a command that is no
LOAD stores within the limits; the presentations left are those after the one taken. -/
theorem payloadStaysProducibleWithoutLoad : Obligations.PayloadStaysProducibleWithoutLoad := by
  unfold Obligations.PayloadStaysProducibleWithoutLoad
  intro s t hahead hgps hrsv h
  have hs : WithinLimits s := (withinLimits_iff s).mpr ⟨hgps, hrsv⟩
  rw [← withinLimits_iff]
  have hinputs := step_inputs h
  rcases step_next h with ⟨-, rfl⟩ | ⟨p, rest, hcons, hserve⟩
  · exact ⟨hahead, hs⟩
  · obtain ⟨hnoload, hrest⟩ := noLoadAhead_cons hcons hahead
    refine ⟨hrest t (by rw [hinputs, hcons, List.tail_cons]), ?_⟩
    rcases serve_next hserve with ⟨-, rfl⟩ | ⟨-, -, rfl⟩ | ⟨-, -, -, rfl⟩ | ⟨-, -, w, hw, hexec⟩
    · exact withinLimits_applyReset _
    · exact hs
    · exact hs
    · exact withinLimits_exec (s := { s with inputs := rest }) (hnoload w hw) hs hexec

end Sys2Proof.Proofs
end

section
/-! PROOF. Two instances (`30_encoding.md` R67, `40_construct.md` R72). -/

namespace Sys2Proof.Proofs

-- One declaration after the other: checking the text then needs less memory.
set_option Elab.async false

open Sys2Proof.Machine Sys2Proof.Claims

/-- VIEW on an operating block gives its payload to the command on the other. -/
theorem viewThen_eq {cmd : PayVec → State → Host.Outcome State Fault Refusal} {y x y' : State}
    (hx : x.fault = false) (hcmd : cmd x.pay y = .next y') :
    viewThen cmd y x = .next (y', x.respond (rspView x.pay)) := by
  have hview : execView x = .next (x.respond (rspView x.pay)) := command_operating hx
  simp [viewThen, hview, hcmd]

/-- Settles O56: the destination loads the bytes the source viewed, which it keeps, so EQ of the same bytes answers 1;
COPY and MOVE are the same sequence, and NEW is CLR. -/
theorem copyAndMoveDuplicate : Obligations.CopyAndMoveDuplicate := by
  unfold Obligations.CopyAndMoveDuplicate
  intro x y hx hy
  have hcopy : viewThen execLoad y x = .next ((y.setPay x.pay).respond rspNone, x.respond (rspView x.pay)) :=
    viewThen_eq hx (exec_load hy x.pay)
  refine ⟨⟨_, _, hcopy, hcopy, rfl, rfl, hx, hy, _, _, viewThen_eq hx (exec_eq_of_pay_eq hy rfl), rfl, rfl, rfl⟩, rfl⟩

end Sys2Proof.Proofs
end

section
/-! PROOF. The decoders as functions of real numbers (`30_encoding.md` R50 to R54, R55): their range (`43_getters.md`
section 1), and what encoding and decoding lose together. -/

namespace Sys2Proof.Proofs

-- One declaration after the other: checking the text then needs less memory.
set_option Elab.async false

open Sys2Proof.Machine Sys2Proof.Claims

/-! ### What the decoders compute -/

/-- `raw / 5 - 50` (R50). -/
def decTempVal (q : ℚ) : ℚ := rnd (rnd (q / 5) - 50)

/-- `raw / 127 * 100` (R51). -/
def decHumVal (q : ℚ) : ℚ := rnd (rnd (q / 127) * 100)

/-- `raw / 42.666` (R52). -/
def decGasVal (q : ℚ) : ℚ := rnd (q / gasFactor)

/-- `raw / 10000 - 180` (R53, R54). -/
def decGpsVal (q : ℚ) : ℚ := rnd (rnd (q / 10000) - 180)

theorem rnd_le_two_pow_24 {x : ℚ} (h : x ≤ 2 ^ 24) : rnd x ≤ 2 ^ 24 := by
  exact_mod_cast rnd_le_natCast (n := 2 ^ 24) (by exact_mod_cast h) (by decide)

section
variable {n : ℕ} (hn : n < 2 ^ 24) {k : Real64} (hk1 : 1 ≤ val k)
include hn hk1

theorem raw_div_bounds : 0 ≤ (n : ℚ) / val k ∧ (n : ℚ) / val k ≤ 2 ^ 24 := by
  have hn' : (n : ℚ) ≤ 2 ^ 24 := by exact_mod_cast hn.le
  have hn0 : (0 : ℚ) ≤ n := Nat.cast_nonneg n
  exact ⟨div_nonneg hn0 (zero_le_one.trans hk1), (div_le_self hn0 hk1).trans hn'⟩

variable (hk : isFinite k = true)
include hk

/-- A raw value divided by a constant of at least 1. -/
theorem fdiv_i2f : isFinite (fdiv (i2f n) k) = true ∧ val (fdiv (i2f n) k) = rnd (n / val k) := by
  obtain ⟨hfin, hval⟩ := integerConversionIsExact n hn
  obtain ⟨h0, hle⟩ := raw_div_bounds hn hk1
  have hquot := isRounded_fdiv hfin hk (zero_lt_one.trans_le hk1).ne'
  rw [hval] at hquot
  refine ⟨hquot.finite_of_le ?_, hquot.val_eq⟩
  rw [abs_of_nonneg h0]
  exact hle.trans (by norm_num)

/-- What a decoder of the form `raw / k - c` computes. -/
theorem fsub_fdiv_i2f {c : Real64} (hc : isFinite c = true) (hc0 : 0 ≤ val c) (hc1 : val c ≤ 2 ^ 24) :
    isFinite (fsub (fdiv (i2f n) k) c) = true ∧ val (fsub (fdiv (i2f n) k) c) = rnd (rnd (n / val k) - val c) := by
  obtain ⟨hfin, hval⟩ := fdiv_i2f hn hk1 hk
  obtain ⟨h0, hle⟩ := raw_div_bounds hn hk1
  have hround := rnd_le_two_pow_24 hle
  have hround0 := rnd_nonneg h0
  have hdiff := isRounded_fsub hfin hc
  rw [hval] at hdiff
  refine ⟨hdiff.finite_of_le ?_, hdiff.val_eq⟩
  have hpow : (2 ^ 24 : ℚ) ≤ 2 ^ 53 := by norm_num
  exact abs_sub_le_iff.mpr ⟨(sub_le_self _ hc0).trans (hround.trans hpow),
    (sub_le_self _ hround0).trans (hc1.trans hpow)⟩

end

theorem decTemp_eq {n : ℕ} (hn : n < 2 ^ 24) : isFinite (decTemp n) = true ∧ val (decTemp n) = decTempVal n := by
  obtain ⟨h50, h5, -⟩ := val_exact_factors
  have h := fsub_fdiv_i2f hn (k := c5) (c := c50) (by norm_num [h5]) (by decide) (by decide) (by norm_num [h50])
    (by norm_num [h50])
  rwa [h50, h5] at h

theorem decGps_eq {n : ℕ} (hn : n < 2 ^ 24) : isFinite (decGps n) = true ∧ val (decGps n) = decGpsVal n := by
  obtain ⟨-, -, -, -, h180, h10000⟩ := val_exact_factors
  have h := fsub_fdiv_i2f hn (k := c10000) (c := c180) (by norm_num [h10000]) (by decide) (by decide)
    (by norm_num [h180]) (by norm_num [h180])
  rwa [h180, h10000] at h

theorem decGas_eq {n : ℕ} (hn : n < 2 ^ 24) : isFinite (decGas n) = true ∧ val (decGas n) = decGasVal n := by
  obtain ⟨-, hgas⟩ := val_inexact_constants
  have h := fdiv_i2f hn (k := cGas) (by norm_num [hgas]) (by decide)
  rwa [hgas] at h

theorem decHum_eq {n : ℕ} (hn : n < 2 ^ 24) : isFinite (decHum n) = true ∧ val (decHum n) = decHumVal n := by
  obtain ⟨-, -, h100, h127, -⟩ := val_exact_factors
  have hk1 : 1 ≤ val c127 := by norm_num [h127]
  obtain ⟨hfin, hval⟩ := fdiv_i2f hn (k := c127) hk1 (by decide)
  obtain ⟨h0, hle⟩ := raw_div_bounds hn (k := c127) hk1
  have hround := rnd_le_two_pow_24 hle
  have hround0 := rnd_nonneg h0
  have hprod := isRounded_fmul hfin (show isFinite c100 = true by decide)
  rw [hval, h100] at hprod
  refine ⟨hprod.finite_of_le ?_, by rw [decHum, hprod.val_eq, h127, decHumVal]⟩
  rw [abs_of_nonneg (mul_nonneg hround0 (by norm_num))]
  exact (mul_le_mul_of_nonneg_right hround (by norm_num)).trans (by norm_num)

/-! ### Their range (`43_getters.md` section 1) -/

theorem decTempVal_mono : Monotone decTempVal := fun _ _ h =>
  rnd_mono (sub_le_sub_right (rnd_mono (div_le_div_of_nonneg_right h (by norm_num))) _)

theorem decHumVal_mono : Monotone decHumVal := fun _ _ h =>
  rnd_mono (mul_le_mul_of_nonneg_right (rnd_mono (div_le_div_of_nonneg_right h (by norm_num))) (by norm_num))

theorem decGasVal_mono : Monotone decGasVal := fun _ _ h =>
  rnd_mono (div_le_div_of_nonneg_right h gasFactor_pos.le)

theorem decGpsVal_mono : Monotone decGpsVal := fun _ _ h =>
  rnd_mono (sub_le_sub_right (rnd_mono (div_le_div_of_nonneg_right h (by norm_num))) _)

/-- The value of a normal pattern between 2^-1023 and 2^53, as a dyadic number. -/
theorem val_eq_dyadic {r : Real64} {neg : Bool} {n k : ℕ}
    (h : fSign r = neg ∧ fExp r ≠ 0 ∧ fExp r + k = 1075 ∧ 2 ^ 52 + fFrac r = n) :
    val r = (if neg then -1 else 1) * (n / 2 ^ k) := by
  obtain ⟨hsign, h0, hexp, hfrac⟩ := h
  have hpow : (2 : ℚ) ^ ((fExp r : ℤ) - 1023) = 2 ^ 52 / 2 ^ k := by
    rw [show (fExp r : ℤ) - 1023 = 52 - k by lia, zpow_sub₀ two_ne_zero, zpow_ofNat, zpow_natCast]
  rw [val, if_neg h0, hsign, hpow, ← hfrac, Nat.cast_add, Nat.cast_pow, Nat.cast_ofNat, ← mul_div_assoc, add_mul, one_mul,
    mul_assoc (fFrac r : ℚ), zpow_neg, zpow_ofNat, inv_mul_cancel₀ (pow_ne_zero _ two_ne_zero), mul_one]

theorem decTempVal_zero : decTempVal 0 = -50 := by
  have h50 : rnd 50 = 50 := by exact_mod_cast rnd_natCast (n := 50) (by decide)
  rw [decTempVal, zero_div, rnd_zero, zero_sub, rnd_neg, h50]

theorem decGpsVal_zero : decGpsVal 0 = -180 := by
  have h180 : rnd 180 = 180 := by exact_mod_cast rnd_natCast (n := 180) (by decide)
  rw [decGpsVal, zero_div, rnd_zero, zero_sub, rnd_neg, h180]

/-- Raw 1023 is decoded to the binary64 nearest 154.6. -/
theorem decTempVal_max : decTempVal 1023 = val 0x4063533333333333#64 := by
  have hquot : rnd (1023 / 5) = 7198722529375027 / 2 ^ 45 := by
    have h := rnd_eq_roundHalfEven (num := 1023) (den := 5) (k := 45) (by decide) (by decide) (by decide) (by decide)
    rw [show roundHalfEven (1023 * 2 ^ 45) 5 = 7198722529375027 by decide] at h
    exact_mod_cast h
  have hdiff : rnd (7198722529375027 / 2 ^ 45 - 50) = 5439503924933427 / 2 ^ 45 := by
    rw [show (7198722529375027 / 2 ^ 45 - 50 : ℚ) = (5439503924933427 : ℕ) / 2 ^ 45 by norm_num]
    exact_mod_cast rnd_dyadic (n := 5439503924933427) (k := 45) (by decide) (by decide)
  rw [decTempVal, hquot, hdiff,
    val_eq_dyadic (neg := false) (n := 5439503924933427) (k := 45) (by decide)]
  norm_num

/-- Raw 127 is decoded to the binary64 nearest 127 / C_GAS. -/
theorem decGasVal_max : decGasVal 127 = val 0x4007D0186266CB2A#64 := by
  have h := rnd_eq_roundHalfEven (num := 127 * 2 ^ 44) (den := 750588209771053) (k := 51) (by decide) (by decide)
    (by decide) (by decide)
  rw [show roundHalfEven (127 * 2 ^ 44 * 2 ^ 51) 750588209771053 = 6702727613041450 by decide] at h
  rw [decGasVal, gasFactor, show (127 / (750588209771053 / 2 ^ 44) : ℚ) = (127 * 2 ^ 44 : ℕ) / (750588209771053 : ℕ) by
      norm_num, h,
    val_eq_dyadic (neg := false) (n := 6702727613041450) (k := 51) (by decide)]
  norm_num

/-- The largest raw coordinate is decoded to the binary64 nearest 1497.7215. -/
theorem decGpsVal_max : decGpsVal (2 ^ 24 - 1) = val 0x409766E2D0E56042#64 := by
  have hquot : rnd ((2 ^ 24 - 1) / 10000) = 7378697189679170 / 2 ^ 42 := by
    have h := rnd_eq_roundHalfEven (num := 16777215) (den := 10000) (k := 42) (by decide) (by decide) (by decide)
      (by decide)
    rw [show roundHalfEven (16777215 * 2 ^ 42) 10000 = 7378697189679170 by decide] at h
    norm_num at h ⊢
    exact h
  have hdiff : rnd (7378697189679170 / 2 ^ 42 - 180) = 6587048817680450 / 2 ^ 42 := by
    rw [show (7378697189679170 / 2 ^ 42 - 180 : ℚ) = (6587048817680450 : ℕ) / 2 ^ 42 by norm_num]
    exact_mod_cast rnd_dyadic (n := 6587048817680450) (k := 42) (by decide) (by decide)
  rw [decGpsVal, hquot, hdiff,
    val_eq_dyadic (neg := false) (n := 6587048817680450) (k := 42) (by decide)]
  norm_num

/-- A raw value of at most `max` decodes to a number between the decodes of 0 and of `max`. -/
theorem decode_bounds {f : ℚ → ℚ} (hf : Monotone f) {n max : ℕ} (hn : n ≤ max) : f 0 ≤ f n ∧ f n ≤ f max :=
  ⟨hf (Nat.cast_nonneg n), hf (Nat.cast_le.mpr hn)⟩

/-- Settles O33: the decoders are monotone, so every result lies between those of raw 0 and of the raw maximum, which
are computed. -/
theorem everyRawValueDecodes : Obligations.EveryRawValueDecodes := by
  unfold Obligations.EveryRawValueDecodes
  obtain ⟨hTLo, -⟩ := val_exact_domain_ends
  refine ⟨fun raw hraw => ?temp, fun raw hraw => ?hum, fun raw hraw => ?gas, fun raw hraw => ?gps⟩
  case temp =>
    obtain ⟨hfin, hval⟩ := decTemp_eq (hraw.trans (by decide))
    obtain ⟨hlo, hhi⟩ := decode_bounds decTempVal_mono (show raw ≤ 1023 by lia)
    rw [hval, hTLo, ← decTempVal_zero, ← decTempVal_max]
    exact ⟨hfin, hlo, by exact_mod_cast hhi⟩
  case hum =>
    obtain ⟨hfin, hval⟩ := decHum_eq (hraw.trans (by decide))
    obtain ⟨hlo, hhi⟩ := decode_bounds decHumVal_mono (show raw ≤ 127 by lia)
    have hzero : decHumVal 0 = 0 := by rw [decHumVal, zero_div, rnd_zero, zero_mul, rnd_zero]
    have hmax : decHumVal 127 = 100 := by
      rw [decHumVal, div_self (by norm_num), show rnd 1 = 1 by exact_mod_cast rnd_natCast (n := 1) (by decide), one_mul]
      exact_mod_cast rnd_natCast (n := 100) (by decide)
    rw [hval, ← hmax]
    exact ⟨hfin, hzero ▸ hlo, by exact_mod_cast hhi⟩
  case gas =>
    obtain ⟨hfin, hval⟩ := decGas_eq (hraw.trans (by decide))
    obtain ⟨hlo, hhi⟩ := decode_bounds decGasVal_mono (show raw ≤ 127 by lia)
    have hzero : decGasVal 0 = 0 := by rw [decGasVal, zero_div, rnd_zero]
    rw [hval, ← decGasVal_max]
    exact ⟨hfin, hzero ▸ hlo, by exact_mod_cast hhi⟩
  case gps =>
    obtain ⟨hfin, hval⟩ := decGps_eq hraw
    obtain ⟨hlo, hhi⟩ := decode_bounds decGpsVal_mono (show raw ≤ 2 ^ 24 - 1 by lia)
    rw [hval, ← decGpsVal_zero, ← decGpsVal_max]
    refine ⟨hfin, hlo, ?_⟩
    norm_num at hhi ⊢
    exact hhi

/-! ### Quantization (`30_encoding.md` R55, `90_conflicts.md` C3) -/

/-- The rounding of a number between 0 and A, with its error. -/
theorem rnd_near {x : ℚ} {A : ℕ} (h0 : 0 ≤ x) (hA : x ≤ A) (hA1 : 1 ≤ A) (hA' : A < 2 ^ 53) :
    0 ≤ rnd x ∧ rnd x ≤ A ∧ |rnd x - x| ≤ A * relErr :=
  ⟨rnd_nonneg h0, rnd_le_natCast hA hA', abs_rnd_sub_le (by rwa [abs_of_nonneg h0]) (by exact_mod_cast hA1)
    (by exact_mod_cast hA'.le)⟩

/-- What is read back is at most the value set and less than a step below it, apart from ε. -/
def LosesLessThan (step ε set read : ℚ) : Prop := read ≤ set + ε ∧ set < read + step + ε

section
variable {step ε set read : ℚ} (h : LosesLessThan step ε set read)
include h

theorem LosesLessThan.mono {step' ε' : ℚ} (hε : ε ≤ ε') (hstep : step + ε ≤ step' + ε') :
    LosesLessThan step' ε' set read :=
  ⟨h.1.trans (add_le_add_right hε _), h.2.trans_le (by rw [add_assoc, add_assoc]; exact add_le_add_right hstep _)⟩

/-- In units of 1 / m. -/
theorem LosesLessThan.mul {m : ℚ} (hm : 0 < m) : LosesLessThan (step * m) (ε * m) (set * m) (read * m) := by
  constructor
  · rw [← add_mul]
    exact mul_le_mul_of_nonneg_right h.1 hm.le
  · rw [← add_mul, ← add_mul]
    exact mul_lt_mul_of_pos_right h.2 hm

/-- Where the value read back is off by δ at most. -/
theorem LosesLessThan.of_near {read' δ : ℚ} (hread : |read' - read| ≤ δ) : LosesLessThan step (ε + δ) set read' := by
  obtain ⟨hup, hdown⟩ := h
  obtain ⟨hread₁, hread₂⟩ := abs_sub_le_iff.mp hread
  constructor
  · calc read' ≤ read + δ := sub_le_iff_le_add'.mp hread₁
      _ ≤ set + ε + δ := add_le_add_left hup δ
      _ = set + (ε + δ) := add_assoc _ _ _
  · calc set < read + step + ε := hdown
      _ ≤ read' + δ + step + ε := add_le_add_left (add_le_add_left (sub_le_iff_le_add'.mp hread₂) _) _
      _ = read' + step + (ε + δ) := by ring

end

/-- Where the values set and read back are shifted by c. -/
theorem LosesLessThan.sub {step ε set read c : ℚ} (h : LosesLessThan step ε (set + c) read) :
    LosesLessThan step ε set (read - c) := by
  obtain ⟨hup, hdown⟩ := h
  exact ⟨sub_le_iff_le_add.mpr (hup.trans_eq (add_right_comm _ _ _)),
    (lt_sub_iff_add_lt.mpr hdown).trans_eq (by ring)⟩

/-- Truncating a number loses less than 1. -/
theorem losesLessThan_floor (p : ℚ) : LosesLessThan 1 0 p ⌊p⌋ := by
  rw [LosesLessThan, add_zero, add_zero]
  exact ⟨Int.floor_le p, Int.lt_floor_add_one p⟩

/-- Where the value set is off by δ at most. -/
theorem LosesLessThan.of_near_set {step ε set read set' δ : ℚ} (h : LosesLessThan step ε set' read)
    (hset : |set' - set| ≤ δ) : LosesLessThan step (ε + δ) set read := by
  obtain ⟨hup, hdown⟩ := h
  obtain ⟨hset₁, hset₂⟩ := abs_sub_le_iff.mp hset
  constructor
  · calc read ≤ set' + ε := hup
      _ ≤ set + δ + ε := add_le_add_left (sub_le_iff_le_add'.mp hset₁) ε
      _ = set + (ε + δ) := by ring
  · calc set ≤ set' + δ := sub_le_iff_le_add'.mp hset₂
      _ < read + step + ε + δ := add_lt_add_left hdown δ
      _ = read + step + (ε + δ) := add_assoc _ _ _

/-- Truncating a product p that is near y * k loses less than 1 / k of y, apart from the error. -/
theorem floor_div_near {y p k ε : ℚ} (hk : 0 < k) (hp : |p - y * k| ≤ ε * k) :
    LosesLessThan (1 / k) ε y (⌊p⌋ / k) := by
  have h := ((losesLessThan_floor p).of_near_set hp).mul (inv_pos.mpr hk)
  rwa [zero_add, one_mul, ← one_div, mul_one_div, mul_one_div, mul_one_div, mul_div_cancel_right₀ _ hk.ne',
    mul_div_cancel_right₀ _ hk.ne'] at h

/-- The truncated product of a rounding of y, for y between 0 and A. -/
theorem floor_rnd_rnd_mul_near {y : ℚ} {k A : ℕ} (hk : 1 ≤ k) (h0 : 0 ≤ y) (hA : y ≤ A) (hA1 : 1 ≤ A)
    (hkA : A * k < 2 ^ 53) :
    (0 ≤ (⌊rnd (rnd y * k)⌋ : ℚ) / k ∧ (⌊rnd (rnd y * k)⌋ : ℚ) / k ≤ A) ∧
      LosesLessThan (1 / k) (A * relErr + A * relErr) y (⌊rnd (rnd y * k)⌋ / k) := by
  have hk0 : (0 : ℚ) < k := Nat.cast_pos.mpr hk
  obtain ⟨hs0, hsA, hs⟩ := rnd_near h0 hA hA1 (lt_of_le_of_lt (Nat.le_mul_of_pos_right A hk) hkA)
  have hprodA : rnd y * k ≤ (A * k : ℕ) := by
    rw [Nat.cast_mul]
    exact mul_le_mul_of_nonneg_right hsA hk0.le
  obtain ⟨hp0, hpA, hp⟩ := rnd_near (mul_nonneg hs0 hk0.le) hprodA (Nat.mul_pos hA1 hk) hkA
  rw [Nat.cast_mul, mul_right_comm] at hp
  refine ⟨⟨div_nonneg (Int.cast_nonneg (Int.floor_nonneg.mpr hp0)) hk0.le, ?_⟩, (floor_div_near hk0 hp).of_near_set hs⟩
  rw [div_le_iff₀ hk0, ← Nat.cast_mul]
  exact (Int.floor_le _).trans hpA

/-- What a decoder of the form `raw / k - c` makes of a quotient between 0 and A. -/
theorem rnd_rnd_sub_near {q c : ℚ} {A : ℕ} (h0 : 0 ≤ q) (hA : q ≤ A) (hc0 : 0 ≤ c) (hc : c ≤ A) (hA1 : 1 ≤ A)
    (hA' : A < 2 ^ 53) : |rnd (rnd q - c) - (q - c)| ≤ A * relErr + A * relErr := by
  obtain ⟨hquot0, hquotA, hquot⟩ := rnd_near h0 hA hA1 hA'
  have hsize : |rnd q - c| ≤ A :=
    abs_sub_le_iff.mpr ⟨(sub_le_self _ hc0).trans hquotA, (sub_le_self _ hquot0).trans hc⟩
  have hdiff := abs_rnd_sub_le hsize (Nat.one_le_cast.mpr hA1) (by exact_mod_cast hA'.le)
  refine (abs_sub_le _ (rnd q - c) _).trans (add_le_add hdiff ?_)
  rwa [sub_sub_sub_cancel_right]

/-- What a decoder of the form `raw / k' * k` makes of a quotient between 0 and 1. -/
theorem rnd_rnd_mul_near {q : ℚ} {k : ℕ} (h0 : 0 ≤ q) (h1 : q ≤ (1 : ℕ)) (hk : 1 ≤ k) (hk' : k < 2 ^ 53) :
    |rnd (rnd q * k) - q * k| ≤ k * relErr + (1 : ℕ) * relErr * k := by
  have hk0 : (0 : ℚ) ≤ k := Nat.cast_nonneg k
  obtain ⟨hquot0, hquot1, hquot⟩ := rnd_near h0 h1 le_rfl (by decide)
  rw [Nat.cast_one] at hquot1
  obtain ⟨-, -, hprod⟩ := rnd_near (mul_nonneg hquot0 hk0) (mul_le_of_le_one_left hk0 hquot1) hk hk'
  refine (abs_sub_le _ (rnd q * k) _).trans (add_le_add hprod ?_)
  rw [← sub_mul, abs_mul, abs_of_nonneg hk0]
  exact mul_le_mul_of_nonneg_right hquot hk0

/-- Encoding by `trunc((x + c) * k)` and decoding by `raw / k - c` loses less than 1 / k, apart from four roundings of
numbers of at most A. -/
theorem affine_quantization {x c : ℚ} {k A : ℕ} (hk : 1 ≤ k) (hc0 : 0 ≤ c) (hc : c ≤ A) (hx0 : 0 ≤ x + c)
    (hx : x + c ≤ A) (hA : 1 ≤ A) (hkA : A * k < 2 ^ 53) :
    LosesLessThan (1 / k) (A * relErr + A * relErr + (A * relErr + A * relErr)) x
      (rnd (rnd (⌊rnd (rnd (x + c) * k)⌋ / k) - c)) := by
  obtain ⟨⟨hraw0, hrawA⟩, hraw⟩ := floor_rnd_rnd_mul_near hk hx0 hx hA hkA
  exact hraw.sub.of_near
    (rnd_rnd_sub_near hraw0 hrawA hc0 hc hA (lt_of_le_of_lt (Nat.le_mul_of_pos_right A hk) hkA))

theorem temp_quantization {x : ℚ} (hlo : -50 ≤ x) (hhi : x ≤ tempTop) :
    LosesLessThan (1 / 5) (1 / 10 ^ 12) x (decTempVal ⌊encTempVal x⌋) := by
  have hsum : x + 50 ≤ (205 : ℕ) := (add_le_add_left hhi 50).trans (by norm_num [tempTop])
  have h := affine_quantization (x := x) (c := 50) (k := 5) (A := 205) (by decide) (by norm_num) (by norm_num)
    (neg_le_iff_add_nonneg.mp hlo) hsum (by decide) (by decide)
  exact h.mono (by norm_num [relErr]) (by norm_num [relErr])

theorem gps_quantization {x : ℚ} (hlo : -180 ≤ x) (hhi : x ≤ 180) :
    LosesLessThan (1 / 10000) (1 / 10 ^ 12) x (decGpsVal ⌊encGpsVal x⌋) := by
  have hsum : x + 180 ≤ (360 : ℕ) := (add_le_add_left hhi 180).trans (by norm_num)
  have h := affine_quantization (x := x) (c := 180) (k := 10000) (A := 360) (by decide) (by norm_num) (by norm_num)
    (neg_le_iff_add_nonneg.mp hlo) hsum (by decide) (by decide)
  exact h.mono (by norm_num [relErr]) (by norm_num [relErr])

theorem hum_quantization {x : ℚ} (hlo : 0 ≤ x) (hhi : x ≤ 100) :
    LosesLessThan (100 / 127) (1 / 10 ^ 12) x (decHumVal ⌊encHumVal x⌋) := by
  have h1 : x / 100 ≤ (1 : ℕ) := by rwa [Nat.cast_one, div_le_one (by norm_num)]
  obtain ⟨⟨hraw0, hraw1⟩, hraw⟩ := floor_rnd_rnd_mul_near (k := 127) (by decide) (div_nonneg hlo (by norm_num)) h1
    le_rfl (by decide)
  have h := (hraw.mul (m := (100 : ℕ)) (by norm_num)).of_near (rnd_rnd_mul_near hraw0 hraw1 (by decide) (by decide))
  simp only [Nat.cast_ofNat] at h
  rw [div_mul_cancel₀ x (by norm_num)] at h
  exact h.mono (by norm_num [relErr]) (by norm_num [relErr])

theorem gas_quantization {x : ℚ} (hlo : 0 ≤ x) (hhi : x ≤ 3) :
    LosesLessThan (1000 / 42666) (1 / 10 ^ 12) x (decGasVal ⌊encGasVal x⌋) := by
  have hfactor := gasFactor_pos
  have hprodle : x * gasFactor ≤ (128 : ℕ) :=
    (mul_le_mul_of_nonneg_right hhi hfactor.le).trans (by norm_num [gasFactor])
  obtain ⟨hprod0, -, hprod⟩ := rnd_near (mul_nonneg hlo hfactor.le) hprodle (by decide) (by decide)
  have hraw : LosesLessThan (1 / gasFactor) (4 * relErr) x (⌊rnd (x * gasFactor)⌋ / gasFactor) :=
    floor_div_near hfactor (hprod.trans (by norm_num [relErr, gasFactor]))
  have hraw0 : 0 ≤ (⌊rnd (x * gasFactor)⌋ : ℚ) / gasFactor :=
    div_nonneg (Int.cast_nonneg (Int.floor_nonneg.mpr hprod0)) hfactor.le
  have hrawle : (⌊rnd (x * gasFactor)⌋ : ℚ) / gasFactor ≤ (4 : ℕ) :=
    hraw.1.trans ((add_le_add_left hhi _).trans (by norm_num [relErr]))
  obtain ⟨-, -, hread⟩ := rnd_near hraw0 hrawle (by decide) (by decide)
  exact (hraw.of_near hread).mono (by norm_num [relErr]) (by norm_num [relErr, gasFactor])

/-- The value read back is the decoder's function of the truncated one. -/
theorem val_dec_toNat {dec : ℕ → Real64} {f : ℚ → ℚ} {e : ℤ} {p : ℚ}
    (hdec : ∀ {n : ℕ}, n < 2 ^ 24 → isFinite (dec n) = true ∧ val (dec n) = f n) (he : e = ⌊p⌋) (h0 : 0 ≤ e)
    (hlt : e < 2 ^ 24) : isFinite (dec e.toNat) = true ∧ val (dec e.toNat) = f ⌊p⌋ := by
  obtain ⟨n, rfl⟩ := Int.eq_ofNat_of_zero_le h0
  rw [← he]
  exact hdec (by lia)

/-- Settles O34: each sum, product, quotient and difference is within half a spacing of the exact one, and the
truncation takes less than one step. -/
theorem quantizationLosesLessThanOneStep : Obligations.QuantizationLosesLessThanOneStep := by
  unfold Obligations.QuantizationLosesLessThanOneStep WithinStep
  refine ⟨fun t ht => ?temp, fun h hh => ?hum, fun g hg => ?gas, fun x hx => ?gps⟩
  case temp =>
    obtain ⟨-, hlo, hhi⟩ := tempOk_iff.mp ht
    obtain ⟨h0, hmax⟩ := encTemp_bounds ht
    obtain ⟨hfin, hval⟩ := val_dec_toNat decTemp_eq (encTemp_eq_floor ht) h0 (by lia)
    rw [hval]
    exact ⟨hfin, temp_quantization hlo hhi⟩
  case hum =>
    obtain ⟨-, hlo, hhi⟩ := humOk_iff.mp hh
    obtain ⟨h0, hmax⟩ := encHum_bounds hh
    obtain ⟨hfin, hval⟩ := val_dec_toNat decHum_eq (encHum_eq_floor hh) h0 (by lia)
    rw [hval]
    exact ⟨hfin, hum_quantization hlo hhi⟩
  case gas =>
    obtain ⟨-, hlo, hhi⟩ := gasOk_iff.mp hg
    obtain ⟨h0, hmax⟩ := encGas_bounds hg
    obtain ⟨hfin, hval⟩ := val_dec_toNat decGas_eq (encGas_eq_floor hg) h0 (by lia)
    rw [hval]
    exact ⟨hfin, gas_quantization hlo hhi⟩
  case gps =>
    obtain ⟨-, hlo, hhi⟩ := gpsOk_iff.mp hx
    obtain ⟨h0, hmax⟩ := encGps_bounds hx
    obtain ⟨hfin, hval⟩ := val_dec_toNat decGps_eq (encGps_eq_floor hx) h0 (by lia)
    rw [hval]
    exact ⟨hfin, gps_quantization hlo hhi⟩

end Sys2Proof.Proofs
end

section
/-! PROOF. The printed values of the setters' rules (`42_setters.md` R76 to R80, `95_test_vectors.md` section 1.1): each
operand by its real value, each rounding by bounds or as a quotient in spacings. -/

namespace Sys2Proof.Proofs

-- One declaration after the other: checking the text then needs less memory.
set_option Elab.async false

open Sys2Proof.Machine

/-! ### Values of operands -/

theorem val_negZero : val 0x8000000000000000#64 = 0 := by
  rw [val, show fFrac 0x8000000000000000#64 = 0 by decide, show fExp 0x8000000000000000#64 = 0 by decide]
  simp

theorem val_negMin_neg : val 0x8000000000000001#64 < 0 := by
  rw [val, show fFrac 0x8000000000000001#64 = 1 by decide, show fExp 0x8000000000000001#64 = 0 by decide,
    show fSign 0x8000000000000001#64 = true by decide]
  norm_num

/-! ### Corner cases (R77 to R80) -/

/-- Temperature: just above the domain; -0; 21.5; -49.81 and -49.6, whose products stay just below a step (R77). -/
theorem temp_corner_cases :
    tempOk 0x4063566666666667#64 = false ∧ tempOk 0x8000000000000000#64 = true ∧
      encTemp 0x8000000000000000#64 = 250 ∧ encTemp 0x4035800000000000#64 = 357 ∧
      encTemp 0xC048E7AE147AE148#64 = 0 ∧ encTemp 0xC048CCCCCCCCCCCD#64 = 1 := by
  refine ⟨?above, ?negZeroOk, ?negZero, ?middle, ?below1, ?below2⟩
  case above =>
    rw [← Bool.not_eq_true, tempOk_iff, val_eq_dyadic (neg := false) (n := 5443022362142311) (k := 45) (by decide)]
    norm_num [tempTop]
  case negZeroOk =>
    rw [tempOk_iff, val_negZero]
    exact ⟨by decide, by norm_num, by norm_num [tempTop]⟩
  case negZero =>
    exact encTemp_of_val (by decide) val_negZero (by norm_num) (by norm_num [tempTop])
      (floor_rnd_rnd_mul (lo := 50) (hi := 50) (k := 0) (factor := 5) (by norm_num) (by norm_num) (by norm_num)
        (by decide) (by decide))
  case middle =>
    exact encTemp_of_val (by decide) (val_eq_dyadic (neg := false) (n := 6051711999279104) (k := 48) (by decide))
      (by norm_num) (by norm_num [tempTop])
      (floor_rnd_rnd_mul (lo := 143) (hi := 143) (k := 1) (factor := 5) (by norm_num) (by norm_num) (by norm_num)
        (by decide) (by decide))
  case below1 =>
    exact encTemp_of_val (by decide) (val_eq_dyadic (neg := true) (n := 7010134294978888) (k := 47) (by decide))
      (by norm_num) (by norm_num [tempTop])
      (floor_rnd_rnd_mul (lo := 0) (hi := 25) (k := 7) (factor := 5) (by norm_num) (by norm_num) (by norm_num)
        (by decide) (by decide))
  case below2 =>
    exact encTemp_of_val (by decide) (val_eq_dyadic (neg := true) (n := 6980579422424269) (k := 47) (by decide))
      (by norm_num) (by norm_num [tempTop])
      (floor_rnd_rnd_mul (lo := 56294995342131) (hi := 56294995342131) (k := 47) (factor := 5) (by norm_num)
        (by norm_num) (by norm_num) (by decide) (by decide))

/-- Humidity: -0; the negative number nearest 0; 99.99, 50 and 0.785 (R78). -/
theorem hum_corner_cases :
    humOk 0x8000000000000000#64 = true ∧ encHum 0x8000000000000000#64 = 0 ∧ humOk 0x8000000000000001#64 = false ∧
      encHum 0x4058FF5C28F5C28F#64 = 126 ∧ encHum 0x4049000000000000#64 = 63 ∧
      encHum 0x3FE91EB851EB851F#64 = 0 := by
  refine ⟨?negZeroOk, ?negZero, ?negative, ?below127, ?half, ?below1⟩
  case negZeroOk =>
    rw [humOk_iff, val_negZero]
    exact ⟨by decide, le_rfl, by norm_num⟩
  case negZero =>
    exact encHum_of_val (by decide) val_negZero le_rfl (by norm_num) (by rw [encHumVal_lo, Int.floor_zero])
  case negative =>
    rw [← Bool.not_eq_true, humOk_iff]
    exact fun h => absurd val_negMin_neg (not_lt.mpr h.2.1)
  case below127 =>
    exact encHum_of_val (by decide) (val_eq_dyadic (neg := false) (n := 7036170730324623) (k := 46) (by decide))
      (by norm_num) (by norm_num)
      (floor_rnd_rnd_mul (lo := 16320) (hi := 16383) (k := 14) (factor := 127) (by norm_num) (by norm_num)
        (by norm_num) (by decide) (by decide))
  case half =>
    exact encHum_of_val (by decide) (val_eq_dyadic (neg := false) (n := 7036874417766400) (k := 47) (by decide))
      (by norm_num) (by norm_num)
      (floor_rnd_rnd_mul (lo := 1) (hi := 1) (k := 1) (factor := 127) (by norm_num) (by norm_num) (by norm_num)
        (by decide) (by decide))
  case below1 =>
    exact encHum_of_val (by decide) (val_eq_dyadic (neg := false) (n := 7070651414971679) (k := 53) (by decide))
      (by norm_num) (by norm_num)
      (floor_rnd_rnd_mul (lo := 0) (hi := 129) (k := 14) (factor := 127) (by norm_num) (by norm_num) (by norm_num)
        (by decide) (by decide))

/-- Gas: -0; 1.5, whose product stays just below a step; 3.01, above the domain (R79). -/
theorem gas_corner_cases :
    gasOk 0x8000000000000000#64 = true ∧ encGas 0x8000000000000000#64 = 0 ∧ encGas 0x3FF8000000000000#64 = 63 ∧
      gasOk 0x4008147AE147AE14#64 = false := by
  refine ⟨?negZeroOk, ?negZero, ?below64, ?above⟩
  case negZeroOk =>
    rw [gasOk_iff, val_negZero]
    exact ⟨by decide, le_rfl, by norm_num⟩
  case negZero =>
    exact encGas_of_val (by decide) val_negZero le_rfl (by norm_num) (by rw [encGasVal_lo, Int.floor_zero])
  case below64 =>
    exact encGas_of_val (by decide) (val_eq_dyadic (neg := false) (n := 6755399441055744) (k := 52) (by decide))
      (by norm_num) (by norm_num)
      (floor_rnd_eq (m := 2251764629313159) (k := 45) (by norm_num [gasFactor]) (by norm_num [gasFactor]) (by decide)
        (by decide) (by decide))
  case above =>
    rw [← Bool.not_eq_true, gasOk_iff, val_eq_dyadic (neg := false) (n := 6777917439192596) (k := 51) (by decide)]
    norm_num

/-- The sum of 154.35 and 180 is a tie, and its product with 10000 is rounded up to a whole number (R80). -/
theorem encGps_154_35 : encGps 0x40634B3333333333#64 = 3343500 := by
  refine encGps_of_val (by decide) (val_eq_dyadic (neg := false) (n := 5430707831911219) (k := 45) (by decide))
    (by norm_num) (by norm_num) ?_
  have hsum := rnd_eq_roundHalfEven (num := 11763894807900979) (den := 2 ^ 45) (k := 44) (by decide) (by decide)
    (by decide) (by decide)
  rw [show roundHalfEven (11763894807900979 * 2 ^ 44) (2 ^ 45) = 5881947403950490 by decide] at hsum
  have hprod := rnd_eq_roundHalfEven (num := 1838108563734528125) (den := 2 ^ 39) (k := 31) (by decide) (by decide)
    (by decide) (by decide)
  rw [show roundHalfEven (1838108563734528125 * 2 ^ 31) (2 ^ 39) = 7180111577088000 by decide] at hprod
  norm_num [encGpsVal] at hsum hprod ⊢
  norm_num [hsum, hprod]

/-- The product of -98.3651 + 180 and 10000 is rounded up to a whole number (R80). -/
theorem encGps_neg_98_3651 : encGps 0xC058975DCC63F141#64 = 816349 := by
  refine encGps_of_val (by decide) (val_eq_dyadic (neg := true) (n := 6921828557910337) (k := 46) (by decide))
    (by norm_num) (by norm_num) ?_
  have hsum := rnd_dyadic (n := 5744545394069183) (k := 46) (by decide) (by decide)
  have hprod := rnd_eq_roundHalfEven (num := 3590340871293239375) (den := 2 ^ 42) (k := 33) (by decide) (by decide)
    (by decide) (by decide)
  rw [show roundHalfEven (3590340871293239375 * 2 ^ 33) (2 ^ 42) = 7012384514244608 by decide] at hprod
  norm_num [encGpsVal] at hsum hprod ⊢
  norm_num [hsum, hprod]

/-- Coordinates: 0; 154.35; -179.9995, whose product stays just below a step; 180.001, above the domain (R80). -/
theorem gps_corner_cases :
    encGps 0x0000000000000000#64 = 1800000 ∧ encGps 0x40634B3333333333#64 = 3343500 ∧
      encGps 0xC0667FFBE76C8B44#64 = 4 ∧ gpsOk 0x406680083126E979#64 = false := by
  obtain ⟨-, hZero, -⟩ := val_exact_domain_ends
  refine ⟨?zero, encGps_154_35, ?below5, ?above⟩
  case zero =>
    exact encGps_of_val isFinite_cZero hZero (by norm_num) (by norm_num)
      (floor_rnd_rnd_mul (lo := 180) (hi := 180) (k := 0) (factor := 10000) (by norm_num) (by norm_num) (by norm_num)
        (by decide) (by decide))
  case below5 =>
    exact encGps_of_val (by decide) (val_eq_dyadic (neg := true) (n := 6333169383803716) (k := 45) (by decide))
      (by norm_num) (by norm_num)
      (floor_rnd_rnd_mul (lo := 4398046511) (hi := 4398046511) (k := 43) (factor := 10000) (by norm_num) (by norm_num)
        (by norm_num) (by decide) (by decide))
  case above =>
    rw [← Bool.not_eq_true, gpsOk_iff, val_eq_dyadic (neg := false) (n := 6333222160361849) (k := 45) (by decide)]
    norm_num

/-- Settles O58: each operand's value is known, and its sum, quotient or product lies between dyadic numbers that
truncate to the printed one. -/
theorem cornerCasesOfTheSetters : Obligations.CornerCasesOfTheSetters := by
  unfold Obligations.CornerCasesOfTheSetters
  exact ⟨temp_corner_cases, hum_corner_cases, gas_corner_cases, gps_corner_cases⟩

/-! ### The source's vectors (`95_test_vectors.md` section 1.1) -/

theorem gasOk_2_6 : gasOk 0x4004CCCCCCCCCCCD#64 = true := by
  rw [gasOk_iff, val_eq_dyadic (neg := false) (n := 5854679515581645) (k := 51) (by decide)]
  exact ⟨by decide, by norm_num, by norm_num⟩

theorem encGas_2_6 : encGas 0x4004CCCCCCCCCCCD#64 = 110 :=
  encGas_of_val (by decide) (val_eq_dyadic (neg := false) (n := 5854679515581645) (k := 51) (by decide)) (by norm_num)
    (by norm_num) (floor_rnd_eq (m := 111 * 2 ^ 10 - 1) (k := 10) (by norm_num [gasFactor]) (by norm_num [gasFactor])
      (by decide) (by decide) (by decide))

theorem gpsOk_source_vector :
    gpsOk 0x40634B3333333333#64 = true ∧ gpsOk 0xC058975DCC63F141#64 = true := by
  rw [gpsOk_iff, gpsOk_iff, val_eq_dyadic (neg := false) (n := 5430707831911219) (k := 45) (by decide),
    val_eq_dyadic (neg := true) (n := 6921828557910337) (k := 46) (by decide)]
  exact ⟨⟨by decide, by norm_num, by norm_num⟩, by decide, by norm_num, by norm_num⟩

/-- Settles O57: the operands lie in their domains and encode to 10, 110, 3343500 and 816349, which the inserts put into
the empty payload. -/
theorem sourceVectorsAreReproduced : Obligations.SourceVectorsAreReproduced := by
  unfold Obligations.SourceVectorsAreReproduced
  obtain ⟨hlat, hlon⟩ := gpsOk_source_vector
  refine ⟨?ver, ?gas, ?gps⟩
  case ver => exact command_strictSet_of_ok (s := State.reset) (ok := verOk 10) rfl (by decide)
  case gas =>
    refine (command_strictSet_of_ok (s := State.reset) rfl gasOk_2_6).trans ?_
    rw [encGas_2_6]
    rfl
  case gps =>
    refine (exec_setgps_of_ok rfl hlat hlon).trans ?_
    rw [encGps_154_35, encGps_neg_98_3651]
    rfl

end Sys2Proof.Proofs
end
